-- ==== Sys2Proof/Word.lean ====
section
/-! DEFINITION. The data types of the spec's notation (00_scope.md R9): bytes, byte sequences, blocks and words. -/

namespace Sys2Proof

/-- A byte: an unsigned 8-bit value (R9). -/
abbrev Byte := BitVec 8

/-- A byte sequence; element 0 is the first byte (R9). -/
abbrev Bytes := List Byte

/-- A block: a byte sequence of length 16 (R9). -/
abbrev Block := Vector Byte 16

/-- A word: a byte sequence of length 4, never read as a number (R9). -/
abbrev Word := Vector Byte 4

/-- The round-key file: 15 blocks (10_state.md R27). -/
abbrev RoundKeys := Vector Block 15

/-- Sixteen bytes 0x00. -/
def zeroBlock : Block := Vector.replicate 16 0x00#8

/-- Four bytes 0x00. -/
def zeroWord : Word := Vector.replicate 4 0x00#8

/-- Fifteen blocks of zero bytes. -/
def zeroRoundKeys : RoundKeys := Vector.replicate 15 zeroBlock

end Sys2Proof
end

