-- ==== Sys2Proof/Syntax.lean ====
section
/-! DEFINITION. The instructions of the hardware are its fourteen commands (30_encoding.md R92); a command has no operand
field (R94). Also the fields of the one format `C8` (R90). -/

namespace Sys2Proof

/-- One constructor per row of spec/opcode_table.json (R92). -/
inductive Instr where
  /-- `EXPAND`, 0x10 (42_key_schedule.md R157). -/
  | expand
  /-- `ENCBLK`, 0x20 (43_block_cipher.md R173). -/
  | encblk
  /-- `DECBLK`, 0x21 (43_block_cipher.md R174). -/
  | decblk
  /-- `ENCECB`, 0x30 (44_modes.md R196). -/
  | encecb
  /-- `DECECB`, 0x31 (44_modes.md R197). -/
  | dececb
  /-- `ENCCBC`, 0x32 (44_modes.md R198). -/
  | enccbc
  /-- `DECCBC`, 0x33 (44_modes.md R199). -/
  | deccbc
  /-- `ENCCFB`, 0x34 (44_modes.md R200). -/
  | enccfb
  /-- `DECCFB`, 0x35 (44_modes.md R201). -/
  | deccfb
  /-- `ENCOFB`, 0x36 (44_modes.md R202). -/
  | encofb
  /-- `DECOFB`, 0x37 (44_modes.md R203). -/
  | decofb
  /-- `ENCCTR`, 0x38 (44_modes.md R204). -/
  | encctr
  /-- `DECCTR`, 0x39 (44_modes.md R205). -/
  | decctr
  /-- `CLEAR`, 0xF0 (45_control.md R230). -/
  | clear
  deriving DecidableEq, Repr

/-- The fields of a command byte (R90): `OPC` in [7:4], `MODE` in [3:1], `DIR` in [0]. -/
structure C8 where
  opc : BitVec 4
  mode : BitVec 3
  dir : BitVec 1
  deriving DecidableEq, Repr

/-- The `OPC`, `MODE` and `DIR` columns of R92. -/
def Instr.fields : Instr → C8
  | .expand => ⟨0x1#4, 0#3, 0#1⟩
  | .encblk => ⟨0x2#4, 0#3, 0#1⟩
  | .decblk => ⟨0x2#4, 0#3, 1#1⟩
  | .encecb => ⟨0x3#4, 0#3, 0#1⟩
  | .dececb => ⟨0x3#4, 0#3, 1#1⟩
  | .enccbc => ⟨0x3#4, 1#3, 0#1⟩
  | .deccbc => ⟨0x3#4, 1#3, 1#1⟩
  | .enccfb => ⟨0x3#4, 2#3, 0#1⟩
  | .deccfb => ⟨0x3#4, 2#3, 1#1⟩
  | .encofb => ⟨0x3#4, 3#3, 0#1⟩
  | .decofb => ⟨0x3#4, 3#3, 1#1⟩
  | .encctr => ⟨0x3#4, 4#3, 0#1⟩
  | .decctr => ⟨0x3#4, 4#3, 1#1⟩
  | .clear => ⟨0xF#4, 0#3, 0#1⟩

end Sys2Proof
end

