-- ==== Sys2Proof/WellFormed.lean ====
section
/-! DEFINITION. Which field values a command may have (30_encoding.md R90, R91, R96). -/

namespace Sys2Proof

/-- `OPC` is one of the four classes of R91: `KEYOP` 0x1, `BLOCK` 0x2, `MSG` 0x3, `CTRL` 0xF. -/
def C8.classLegal (c : C8) : Bool :=
  c.opc == 0x1#4 || c.opc == 0x2#4 || c.opc == 0x3#4 || c.opc == 0xF#4

/-- `MODE` is 0 to 4 in class `MSG` (R91) and 0 in every other class (R90). -/
def C8.modeLegal (c : C8) : Bool :=
  if c.opc == 0x3#4 then c.mode.toNat ≤ 4 else c.mode == 0#3

/-- `DIR` may be 1 in the classes `BLOCK` and `MSG` only (R90). -/
def C8.dirLegal (c : C8) : Bool :=
  c.opc == 0x2#4 || c.opc == 0x3#4 || c.dir == 0#1

/-- The fields are those of a legal command (R90, R91). -/
def C8.wellFormed (c : C8) : Bool :=
  c.classLegal && c.modeLegal && c.dirLegal

/-- A command is well-formed when its fields are legal. A command has no operand that could be out of range (R94). -/
def Instr.wellFormed (i : Instr) : Bool :=
  i.fields.wellFormed

end Sys2Proof
end

