-- ==== Sys2Proof/Decode.lean ====
section
/-! DEFINITION. The decoder of a command byte, total on all 256 values and rejecting by name (30_encoding.md R90 to R93, R96),
and after it the encoder (R92). Decoding goes through the fields of R90 and R91, encoding through the `Byte` column of R92. -/

namespace Sys2Proof

/-- Why a byte is no command (R96); every reason leads to the one error kind IllegalCommand. -/
inductive IllegalReason where
  /-- `OPC` names no class. -/
  | illegalClass
  /-- `MODE` 5, 6, 7 in class `MSG`. -/
  | illegalMode
  /-- A non-zero `MODE` in class `KEYOP`, `BLOCK` or `CTRL`. -/
  | nonzeroMode
  /-- `DIR` = 1 in class `KEYOP` or `CTRL`. -/
  | nonzeroDir
  deriving DecidableEq, Repr

/-- What the decoder answers. -/
inductive Decoded where
  | command (i : Instr)
  | illegal (why : IllegalReason)
  deriving DecidableEq, Repr

/-- The command, where there is one. -/
def Decoded.command? : Decoded → Option Instr
  | .command i => some i
  | .illegal _ => none

/-- The fields of a byte (R90). -/
def C8.unpack (v : Byte) : C8 :=
  ⟨v.extractLsb' 4 4, v.extractLsb' 1 3, v.extractLsb' 0 1⟩

/-- The byte with the given fields (R90). -/
def C8.pack (c : C8) : Byte :=
  (c.opc.setWidth 8 <<< 4) ||| (c.mode.setWidth 8 <<< 1) ||| c.dir.setWidth 8

/-- A command of a class without `MODE` and `DIR` (R90). -/
def decodePlain (i : Instr) (c : C8) : Decoded :=
  if c.mode ≠ 0#3 then .illegal .nonzeroMode
  else if c.dir ≠ 0#1 then .illegal .nonzeroDir
  else .command i

/-- Class `BLOCK`: `DIR` chooses the direction, `MODE` must be 0 (R90, R91). -/
def decodeBlock (c : C8) : Decoded :=
  if c.mode ≠ 0#3 then .illegal .nonzeroMode
  else .command (if c.dir = 0#1 then .encblk else .decblk)

/-- Class `MSG`: `MODE` chooses the mode, `DIR` the direction (R90, R91). -/
def decodeMsg (c : C8) : Decoded :=
  if c.mode = 0#3 then .command (if c.dir = 0#1 then .encecb else .dececb)
  else if c.mode = 1#3 then .command (if c.dir = 0#1 then .enccbc else .deccbc)
  else if c.mode = 2#3 then .command (if c.dir = 0#1 then .enccfb else .deccfb)
  else if c.mode = 3#3 then .command (if c.dir = 0#1 then .encofb else .decofb)
  else if c.mode = 4#3 then .command (if c.dir = 0#1 then .encctr else .decctr)
  else .illegal .illegalMode

/-- Decoding by class (R91). -/
def decodeFields (c : C8) : Decoded :=
  if c.opc = 0x1#4 then decodePlain .expand c
  else if c.opc = 0x2#4 then decodeBlock c
  else if c.opc = 0x3#4 then decodeMsg c
  else if c.opc = 0xF#4 then decodePlain .clear c
  else .illegal .illegalClass

/-- The decoder: it reads nothing but the byte (R93, R97). -/
def decode (v : Byte) : Decoded :=
  decodeFields (C8.unpack v)

/-- The `Byte` column of R92. -/
def encode : Instr → Byte
  | .expand => 0x10#8
  | .encblk => 0x20#8
  | .decblk => 0x21#8
  | .encecb => 0x30#8
  | .dececb => 0x31#8
  | .enccbc => 0x32#8
  | .deccbc => 0x33#8
  | .enccfb => 0x34#8
  | .deccfb => 0x35#8
  | .encofb => 0x36#8
  | .decofb => 0x37#8
  | .encctr => 0x38#8
  | .decctr => 0x39#8
  | .clear => 0xF0#8

/-- The command byte in a word of `nbits` bits: the length of a command is always one byte (R90), the first one of the word. -/
def commandByte (nbits w : Nat) : Byte :=
  BitVec.ofNat 8 (w % 2 ^ nbits)

/-- The command the decoder reads from a word numbered as spec/opcode_table.json numbers it (log entry 5). -/
def decodeTableWord (nbits w : Nat) : Option Instr :=
  (decode (commandByte nbits w)).command?

end Sys2Proof
end

