-- ==== Sys2Proof/Config.lean ====
section
/-! DEFINITION. What an instance of the core fixes: the one open parameter `MAXLEN` (00_scope.md R6), and what a byte of the
buffers that nothing has written reads as. -/

namespace Sys2Proof

/-- How far `MAXLEN` lies above its least value 16.
The bound is 2^32 - 32, so that MAXLEN + 16 < 2^32.
DESIGN CHOICE (log entry 1): the parameter of R6 has no body here, so a proof holds for every value R6 allows. -/
opaque Config.maxLenAbove16 : Fin 4294967264

/-- `MAXLEN`, the size of the input buffer in bytes: 16 <= MAXLEN and MAXLEN + 16 < 2^32 (R6). -/
def Config.maxLen : Nat := 16 + Config.maxLenAbove16.val

/-- What an unlisted byte of `DIN` or `DOUT` reads as: the reset contents, 0x00 (10_state.md R42; log entry 12). -/
def Config.unlistedByte : Byte := 0x00#8

end Sys2Proof
end

