-- ==== Sys2Proof/Machine/State.lean ====
section
/-! DEFINITION. The state of the machine (10_state.md R20), the events of the host's port (20_memory.md R60), the error kinds
(60_exceptions.md R240), the reasons a step may stop, and the state after reset (10_state.md R42). -/

namespace Sys2Proof.Machine

/-- A buffer: (address, byte) pairs, addresses strictly rising, no entry equal to what an unlisted address reads as. -/
abbrev Memory := List Host.Cell

/-- What the outside world can do to the core: the two transactions of the host port (R60), with a 2-bit space select and a
32-bit byte address, and reset (70_reset_and_hazards.md R270). -/
inductive HostEvent where
  /-- `HostWrite(sel, addr, data)`. -/
  | write (sel : BitVec 2) (addr : BitVec 32) (data : Byte)
  /-- `HostRead(sel, addr)`. -/
  | read (sel : BitVec 2) (addr : BitVec 32)
  /-- Reset (log entry 6). -/
  | reset
  deriving DecidableEq, Repr

/-- The error kinds (R240); codes 1 to 7 in this order. -/
inductive ErrorKind where
  | invalidKeySize
  | invalidIV
  | invalidBlockSize
  | invalidPadding
  | invalidKeySchedule
  | lengthOverflow
  | illegalCommand
  deriving DecidableEq, Repr

/-- The reasons a step may stop. The hardware has none: its errors are codes in `ERR` after which it goes on (R249). -/
inductive Fault where
  /-- Raised by a data command in a state whose `RKCNT` is `NR + 1` and whose `NR` names a round key above `RK[14]`, an entry
  that does not exist (10_state.md R27). No run reaches such a state (R28). Safe (log entry 7). -/
  | roundKeyAbsent
  deriving DecidableEq, Repr

/-- The reasons for which an instruction has no meaning. -/
inductive Refusal where
  /-- An arm of `exec` without a meaning. No arm uses it: every command has its meaning. Safe. -/
  | notModelled (mnemonic : String)
  deriving DecidableEq, Repr

/-- The state: the storage elements of R20, and the model's own two fields for the host's side of the port. -/
structure State where
  /-- `KEY[0..31]` (R22). -/
  key : Vector Byte 32
  /-- `KEYLEN` (R22). -/
  keylen : Byte
  /-- `IV[0..15]` (R23). -/
  iv : Block
  /-- `IVLEN` (R23). -/
  ivlen : Byte
  /-- `LEN` (R29). -/
  len : BitVec 32
  /-- `OLEN` (R30). -/
  olen : BitVec 32
  /-- `ERR`: the code of the last command in [2:0], [7:3] zero (R31). -/
  err : Byte
  /-- `NK` (R28). -/
  nk : Byte
  /-- `NR` (R28). -/
  nr : Byte
  /-- `RKCNT` (R28). -/
  rkcnt : Byte
  /-- `RK[0..14]`, the round-key file (R27). -/
  rk : RoundKeys
  /-- `S`, the State of the block operation, hidden (R25). -/
  st : Block
  /-- `CV`, the chaining value or counter, hidden (R26). -/
  cv : Block
  /-- `DIN`, the input buffer (R34). -/
  din : Memory
  /-- `DOUT`, the output buffer (R35). -/
  dout : Memory
  /-- The MODEL's own: the host's pending events, oldest first. DESIGN CHOICE (log entry 2). -/
  host : List HostEvent
  /-- The MODEL's own: the bytes `HostRead` has returned, oldest first (R280). DESIGN CHOICE (log entry 3). -/
  reads : Bytes
  deriving DecidableEq, Repr

/-- The state after reset (R42): every storage element zero; no event pending and nothing read yet (log entries 2, 3). -/
def State.reset : State where
  key := Vector.replicate 32 0x00#8
  keylen := 0x00#8
  iv := zeroBlock
  ivlen := 0x00#8
  len := 0#32
  olen := 0#32
  err := 0x00#8
  nk := 0x00#8
  nr := 0x00#8
  rkcnt := 0x00#8
  rk := zeroRoundKeys
  st := zeroBlock
  cv := zeroBlock
  din := []
  dout := []
  host := []
  reads := []

/-- What a step, or a command, answers. -/
abbrev Result := Host.Outcome State Fault Refusal

end Sys2Proof.Machine
end

