-- ==== Sys2Proof/Machine/Flags.lean ====
section
/-! DEFINITION. The flags of the hardware (10_state.md R44): the code in `ERR`, the condition "a schedule is held", and the
checks that decide which error a command reports (60_exceptions.md R240 to R248). -/

namespace Sys2Proof.Machine

/-- The numeric codes of R240. -/
def ErrorKind.code : ErrorKind → Byte
  | .invalidKeySize => 1#8
  | .invalidIV => 2#8
  | .invalidBlockSize => 3#8
  | .invalidPadding => 4#8
  | .invalidKeySchedule => 5#8
  | .lengthOverflow => 6#8
  | .illegalCommand => 7#8

/-- `RKCNT = NR + 1`, on natural numbers: a schedule is held (R28, R172). -/
def scheduleHeld (s : State) : Bool :=
  s.rkcnt.toNat == s.nr.toNat + 1

/-- The checks of `ENCBLK` and `DECBLK` in their order (43_block_cipher.md R173, R174; log entry 11). -/
def rawBlockCheck (s : State) : Option ErrorKind :=
  if scheduleHeld s = false then some .invalidKeySchedule
  else if s.len.toNat ≠ 16 then some .invalidBlockSize
  else none

/-- The checks of `Prologue(needs_iv, whole_blocks)` in their order (44_modes.md R195). -/
def modeCheck (needsIv wholeBlocks : Bool) (s : State) : Option ErrorKind :=
  if scheduleHeld s = false then some .invalidKeySchedule
  else if needsIv = true ∧ s.ivlen.toNat ≠ 16 then some .invalidIV
  else if s.len.toNat > Config.maxLen then some .lengthOverflow
  else if wholeBlocks = true ∧ s.len.toNat % 16 ≠ 0 then some .invalidBlockSize
  else none

end Sys2Proof.Machine
end

