-- ==== Sys2Proof/Machine/Ops.lean ====
section
/-! DEFINITION. The named operations over memory and registers that the meanings share: reading and writing the buffers
(00_scope.md R10), raising an error and ending without one (60_exceptions.md R249), the output and schedule registers. -/

namespace Sys2Proof.Machine

/-- One byte of a buffer. -/
def Memory.read : Memory → Nat → Byte
  | [], _ => Config.unlistedByte
  | (k, v) :: m, a => if k = a then v else Memory.read m a

/-- Write one byte of a buffer, keeping the canonical form. -/
def Memory.write : Memory → Nat → Byte → Memory
  | [], a, b => if b = Config.unlistedByte then [] else [(a, b)]
  | (k, v) :: m, a, b =>
    if a < k then (if b = Config.unlistedByte then (k, v) :: m else (a, b) :: (k, v) :: m)
    else if a = k then (if b = Config.unlistedByte then m else (a, b) :: m)
    else (k, v) :: Memory.write m a b

/-- The canonical form: addresses strictly rising, no entry equal to what an unlisted address reads as. -/
abbrev Memory.wf (m : Memory) : Prop :=
  m.Pairwise (fun c d => c.1 < d.1) ∧ ∀ c ∈ m, c.2 ≠ Config.unlistedByte

/-- Every listed address is below `n`. -/
abbrev Memory.below (m : Memory) (n : Nat) : Prop :=
  ∀ c ∈ m, c.1 < n

/-- `MemRead(space, addr, n)` (R10). -/
def Memory.readBytes (m : Memory) (addr : Nat) : Nat → Bytes
  | 0 => []
  | n + 1 => m.read addr :: Memory.readBytes m (addr + 1) n

/-- `MemWrite(space, addr, len(v), v)` (R10). -/
def Memory.writeBytes (m : Memory) (addr : Nat) : Bytes → Memory
  | [] => m
  | b :: v => Memory.writeBytes (m.write addr b) (addr + 1) v

/-- `raise E` (R249): `ERR` takes the code, nothing else is written, and the command has ended. This is the hardware's one way
of taking an exception; there is no pc, no saved state and no handler. -/
def raise (e : ErrorKind) (s : State) : State :=
  { s with err := e.code }

/-- A command that ends without a `raise` ends with `ERR <- 0` (R249). There is no return from an error (R251). -/
def finish (s : State) : State :=
  { s with err := 0x00#8 }

/-- The start of every data command: all of `DOUT` and `OLEN` to zero (10_state.md R35). -/
def clearOutput (s : State) : State :=
  { s with dout := [], olen := 0#32 }

/-- The output of a successful data command at `DOUT[0..]`, and its length in `OLEN` (R35). The spec writes it segment by
segment; one atomic step shows no difference. DEDUCED (log entry 8). -/
def storeOutput (out : Bytes) (s : State) : State :=
  { s with dout := s.dout.writeBytes 0 out, olen := BitVec.ofNat 32 out.length }

/-- What the block operations of a command leave in the hidden registers `S` and `CV`. -/
def setWorking (st cv : Block) (s : State) : State :=
  { s with st := st, cv := cv }

/-- `RK`, `NK`, `NR`, `RKCNT` are written only together (R28). -/
def setSchedule (rk : RoundKeys) (nk nr rkcnt : Byte) (s : State) : State :=
  { s with rk := rk, nk := nk, nr := nr, rkcnt := rkcnt }

/-- Every storage element of the core to zero (45_control.md R230; 70_reset_and_hazards.md R271); the host's side of the port
is outside the core and stays (log entry 6). -/
def zeroCore (s : State) : State :=
  { State.reset with host := s.host, reads := s.reads }

/-- An illegal byte written to `CMD`: `ERR <- 7` and nothing else (30_encoding.md R96; 60_exceptions.md R247). -/
def illegalCommand (s : State) : State :=
  raise .illegalCommand s

/-- The frame every data command has (44_modes.md R195, 43_block_cipher.md R173, 60_exceptions.md R249): the output is zeroed,
the first failing check is raised, and otherwise `body` runs with `NR` as an index of the round-key file. -/
def runData (check : State → Option ErrorKind) (body : Fin 15 → State → State) (s : State) : Result :=
  match check (clearOutput s) with
  | some e => .next (raise e (clearOutput s))
  | none =>
    if h : s.nr.toNat < 15 then .next (body ⟨s.nr.toNat, h⟩ (clearOutput s))
    else .fault .roundKeyAbsent

end Sys2Proof.Machine
end

