-- ==== Sys2Proof/Machine/Control.lean ====
section
/-! DEFINITION. The control command `CLEAR` (45_control.md R230). -/

namespace Sys2Proof.Machine

/-- `CLEAR`: every storage element of 10_state.md R20 to zero, element by element as R230 lists them; it cannot fail. -/
def execClear (s : State) : Result :=
  .next
    { s with
      key := Vector.replicate 32 0x00#8, keylen := 0x00#8
      iv := Vector.replicate 16 0x00#8, ivlen := 0x00#8
      len := 0#32, olen := 0#32
      rk := Vector.replicate 15 (Vector.replicate 16 0x00#8)
      nk := 0x00#8, nr := 0x00#8, rkcnt := 0x00#8
      st := Vector.replicate 16 0x00#8, cv := Vector.replicate 16 0x00#8
      din := [], dout := []
      err := 0x00#8 }

end Sys2Proof.Machine
end

