-- ==== Sys2Proof/Machine/Operands.lean ====
section
/-! DEFINITION. The operands of the commands (30_encoding.md R94, R95): the bytes of the 32-bit length registers, the message
in `DIN`, its segments and blocks (44_modes.md R190). -/

namespace Sys2Proof.Machine

/-- "byte `k` of `X`" is `X[8k+7 : 8k]` (20_memory.md R61). -/
def byteOf (x : BitVec 32) (k : Nat) : Byte :=
  x.extractLsb' (8 * k) 8

/-- `X` with its byte `k` replaced (20_memory.md R61, R69). -/
def withByte (x : BitVec 32) (k : Nat) (b : Byte) : BitVec 32 :=
  (x &&& ~~~(0xFF#32 <<< (8 * k))) ||| (b.setWidth 32 <<< (8 * k))

/-- A 32-bit value from its four bytes, least significant first (R94). -/
def assemble (b0 b1 b2 b3 : Byte) : BitVec 32 :=
  b0.setWidth 32 + (b1.setWidth 32 <<< 8) + (b2.setWidth 32 <<< 16) + (b3.setWidth 32 <<< 24)

/-- The input message `DIN[0..LEN-1]` (10_state.md R29, R34). -/
def message (s : State) : Bytes :=
  s.din.readBytes 0 s.len.toNat

/-- The key `KEY[0..KEYLEN-1]` (42_key_schedule.md R157). -/
def keyBytes (s : State) : Bytes :=
  s.key.toList.take s.keylen.toNat

/-- `NSeg(n) = (n + 15) div 16` (R190). -/
def nSeg (n : Nat) : Nat :=
  (n + 15) / 16

/-- The first `k` segments of a sequence, each of at most 16 bytes, at offsets 0, 16, 32, ... (R190). -/
def takeSegments : Nat → Bytes → List Bytes
  | 0, _ => []
  | k + 1, x => x.take 16 :: takeSegments k (x.drop 16)

/-- All segments of a message (R190). -/
def segments (x : Bytes) : List Bytes :=
  takeSegments (nSeg x.length) x

/-- A sequence of 16 bytes as a block. It is used on sequences of 16 bytes only; the 0x00 for a missing byte is never read
(log entry 9). -/
def toBlock (x : Bytes) : Block :=
  Vector.ofFn fun i : Fin 16 => x.getD i.val 0x00#8

/-- The blocks of a sequence whose length is a multiple of 16 (R190). -/
def blocks (x : Bytes) : List Block :=
  (segments x).map toBlock

end Sys2Proof.Machine
end

