-- ==== Sys2Proof/Machine/Field.lean ====
section
/-! DEFINITION. Arithmetic in GF(2^8) (40_gf_and_tables.md R110 to R112). -/

namespace Sys2Proof.Machine

/-- `xtime(a)`, doubling (R111). -/
def xtime (a : Byte) : Byte :=
  (a <<< 1) ^^^ (if a.getLsbD 7 = true then 0x1B#8 else 0x00#8)

/-- The loop of `GFMul` (R112) from bit `i` on, with `n` bits left. -/
def gfMulLoop : Nat → Nat → Byte → Byte → Byte → Byte
  | 0, _, p, _, _ => p
  | n + 1, i, p, a, b => gfMulLoop n (i + 1) (if b.getLsbD i = true then p ^^^ a else p) (xtime a) b

/-- `GFMul(a, b)`, the product in the field of R110 (R112). -/
def gfMul (a b : Byte) : Byte :=
  gfMulLoop 8 0 0x00#8 a b

end Sys2Proof.Machine
end

