-- ==== Sys2Proof/Machine/Transforms.lean ====
section
/-! DEFINITION. The block transform core (41_block_transforms.md R130 to R137): pure functions of 16 bytes; the byte at row `r`,
column `c` of the State is byte `r + 4c` (R130). -/

namespace Sys2Proof.Machine

/-- Bytewise exclusive-or of two blocks (00_scope.md R9). -/
def xorBlock (a b : Block) : Block :=
  Vector.ofFn fun i : Fin 16 => a[i] ^^^ b[i]

/-- `SubBytes(s)` (R131). -/
def subBytes (s : Block) : Block :=
  Vector.ofFn fun i : Fin 16 => sbox s[i]

/-- `InvSubBytes(s)` (R132). -/
def invSubBytes (s : Block) : Block :=
  Vector.ofFn fun i : Fin 16 => invSbox s[i]

/-- The position of row `r`, column `c mod 4` (R130). -/
def position (r c : Nat) : Fin 16 :=
  ⟨r % 4 + 4 * (c % 4), by omega⟩

/-- `ShiftRows(s)`: `t[r + 4c] = s[r + 4((c + r) mod 4)]` (R133). -/
def shiftRows (s : Block) : Block :=
  Vector.ofFn fun i : Fin 16 =>
    let r := i.val % 4
    let c := i.val / 4
    s[position r (c + r)]

/-- `InvShiftRows(s)`: `t[r + 4c] = s[r + 4((c - r) mod 4)]` (R134). -/
def invShiftRows (s : Block) : Block :=
  Vector.ofFn fun i : Fin 16 =>
    let r := i.val % 4
    let c := i.val / 4
    s[position r (c + 4 - r)]

/-- The entry at row `i`, column `j` of the circulant matrix with first row `m`: `m[(j - i) mod 4]` (R135). -/
def circulant (m : Word) (i j : Nat) : Byte :=
  m[(j + 4 - i % 4) % 4]'(Nat.mod_lt _ (by decide))

/-- Each column of the State multiplied by a circulant matrix: `t[4c + i] = XOR over j of GFMul(m[(j - i) mod 4], s[4c + j])`
(R135, R136, the compact form). -/
def mixWith (m : Word) (s : Block) : Block :=
  Vector.ofFn fun p : Fin 16 =>
    let i := p.val % 4
    let c := p.val / 4
    gfMul (circulant m i 0) s[position 0 c] ^^^ gfMul (circulant m i 1) s[position 1 c] ^^^
      gfMul (circulant m i 2) s[position 2 c] ^^^ gfMul (circulant m i 3) s[position 3 c]

/-- The first row of the MixColumns matrix (R135). -/
def mixRow : Word := #v[0x02, 0x03, 0x01, 0x01]

/-- The first row of the InvMixColumns matrix (R136). -/
def invMixRow : Word := #v[0x0E, 0x0B, 0x0D, 0x09]

/-- `MixColumns(s)` (R135). -/
def mixColumns (s : Block) : Block :=
  mixWith mixRow s

/-- `InvMixColumns(s)` (R136). -/
def invMixColumns (s : Block) : Block :=
  mixWith invMixRow s

/-- `AddRoundKey(s, k)` (R137). -/
def addRoundKey (s k : Block) : Block :=
  xorBlock s k

end Sys2Proof.Machine
end

