-- ==== Sys2Proof/Machine/KeySchedule.lean ====
section
/-! DEFINITION. The key-schedule expander (42_key_schedule.md R150 to R157) and the command `EXPAND`. -/

namespace Sys2Proof.Machine

/-- Bytewise exclusive-or of two words (00_scope.md R9). -/
def xorWord (a b : Word) : Word :=
  Vector.ofFn fun i : Fin 4 => a[i] ^^^ b[i]

/-- `RotWord([w0, w1, w2, w3]) = [w1, w2, w3, w0]` (R150). -/
def rotWord (w : Word) : Word :=
  #v[w[1], w[2], w[3], w[0]]

/-- `SubWord`, the forward table on each byte (R151). -/
def subWord (w : Word) : Word :=
  #v[sbox w[0], sbox w[1], sbox w[2], sbox w[3]]

/-- `x^k` in the field by repeated doubling from 0x01 (R152). -/
def rconPower : Nat → Byte
  | 0 => 0x01#8
  | k + 1 => xtime (rconPower k)

/-- `Rcon(i)` for `i >= 1`: 0x01 doubled `i - 1` times (R152). `Rcon(0)` is never used (log entry 9). -/
def rcon (i : Nat) : Byte :=
  rconPower (i - 1)

/-- `t[0] <- t[0] ^ Rcon(i)`: the constant goes onto the first byte only (R152, R154). -/
def addRcon (t : Word) (i : Nat) : Word :=
  #v[t[0] ^^^ rcon i, t[1], t[2], t[3]]

/-- `Params(n) = (Nk, Nr)` for a key of 16, 24 or 32 bytes; no parameters for any other length (R153). -/
def params (n : Nat) : Option (Nat × Nat) :=
  if n = 16 ∨ n = 24 ∨ n = 32 then some (n / 4, n / 4 + 6) else none

/-- Word `j` of a list of words. It is used below the list's length only; the zero word is never read (log entry 9). -/
def wordAt (w : List Word) (j : Nat) : Word :=
  w.getD j zeroWord

/-- `key[4j .. 4j+3]` (R154). -/
def keyWord (key : Bytes) (j : Nat) : Word :=
  Vector.ofFn fun i : Fin 4 => key.getD (4 * j + i.val) 0x00#8

/-- The value XORed onto `W[j-Nk]` to make `W[j]`, from `t = W[j-1]` (R154). -/
def chainWord (nk j : Nat) (t : Word) : Word :=
  if j % nk = 0 then addRcon (subWord (rotWord t)) (j / nk)
  else if nk > 6 ∧ j % nk = 4 then subWord t
  else t

/-- The words `W[0..]` with `n` more words than `w` (R154): each is appended from the words before it. -/
def growWords (nk : Nat) : Nat → List Word → List Word
  | 0, w => w
  | n + 1, w =>
    let j := w.length
    growWords nk n (w ++ [xorWord (wordAt w (j - nk)) (chainWord nk j (wordAt w (j - 1)))])

/-- The schedule as words `W[0 .. 4(Nr+1) - 1]` (R154). -/
def scheduleWords (nk nr : Nat) (key : Bytes) : List Word :=
  growWords nk (4 * (nr + 1) - nk) ((List.range nk).map (keyWord key))

/-- `W[4k] ++ W[4k+1] ++ W[4k+2] ++ W[4k+3]` (R154). -/
def roundKey (w : List Word) (k : Nat) : Block :=
  Vector.ofFn fun i : Fin 16 => (wordAt w (4 * k + i.val / 4))[i.val % 4]

/-- The round-key file after a successful `EXPAND`: `ExpandKey(key)` in entries 0 to `Nr`, zero above (R154, R157). -/
def expandKey (nk nr : Nat) (key : Bytes) : RoundKeys :=
  let w := scheduleWords nk nr key
  Vector.ofFn fun k : Fin 15 => if k.val ≤ nr then roundKey w k.val else zeroBlock

/-- `EXPAND` (R157). -/
def execExpand (s : State) : Result :=
  match params s.keylen.toNat with
  | none => .next (raise .invalidKeySize (setSchedule zeroRoundKeys 0#8 0#8 0#8 s))
  | some (nk, nr) =>
    .next (finish (setSchedule (expandKey nk nr (keyBytes s))
      (BitVec.ofNat 8 nk) (BitVec.ofNat 8 nr) (BitVec.ofNat 8 (nr + 1)) s))

end Sys2Proof.Machine
end

