-- ==== Sys2Proof/Machine/BlockCipher.lean ====
section
/-! DEFINITION. The block cipher (43_block_cipher.md R170 to R174): the two block operations, as functions of the round-key file
and `NR`, and the raw single-block commands `ENCBLK` and `DECBLK`. -/

namespace Sys2Proof.Machine

/-- `RK[1], ..., RK[NR-1]`, the round keys of the middle rounds in forward order. -/
def middleKeys (rk : RoundKeys) (nr : Fin 15) : List Block :=
  (rk.toList.take nr.val).drop 1

/-- A middle round of encryption: SubBytes, ShiftRows, MixColumns, AddRoundKey (R170). -/
def encRound (s k : Block) : Block :=
  addRoundKey (mixColumns (shiftRows (subBytes s))) k

/-- A middle round of decryption: InvShiftRows, InvSubBytes, AddRoundKey, InvMixColumns (R171). -/
def decRound (s k : Block) : Block :=
  invMixColumns (addRoundKey (invSubBytes (invShiftRows s)) k)

/-- `EncryptBlock(b)` (R170). -/
def encryptBlock (rk : RoundKeys) (nr : Fin 15) (b : Block) : Block :=
  let s := (middleKeys rk nr).foldl encRound (addRoundKey b rk[0])
  addRoundKey (shiftRows (subBytes s)) rk[nr]

/-- `DecryptBlock(b)`: the same round keys, last first (R171, R156). -/
def decryptBlock (rk : RoundKeys) (nr : Fin 15) (b : Block) : Block :=
  let s := (middleKeys rk nr).reverse.foldl decRound (addRoundKey b rk[nr])
  addRoundKey (invSubBytes (invShiftRows s)) rk[0]

/-- The body of `ENCBLK` and `DECBLK`: one block operation on `DIN[0..15]`; `S` holds its output, `CV` is not written
(R173, R174). -/
def rawBlock (op : RoundKeys → Fin 15 → Block → Block) (nr : Fin 15) (s : State) : State :=
  let c := op s.rk nr (toBlock (s.din.readBytes 0 16))
  finish (storeOutput c.toList (setWorking c s.cv s))

/-- `ENCBLK` (R173). -/
def execEncblk (s : State) : Result :=
  runData rawBlockCheck (rawBlock encryptBlock) s

/-- `DECBLK` (R174). -/
def execDecblk (s : State) : Result :=
  runData rawBlockCheck (rawBlock decryptBlock) s

end Sys2Proof.Machine
end

