-- ==== Sys2Proof/Machine/ModeHelpers.lean ====
section
/-! DEFINITION. The helper functions of the mode controller (44_modes.md R191 to R194) and the segment loops of the ten mode
commands as functions of the block operation (R196 to R205). -/

namespace Sys2Proof.Machine

/-- `Pad(p)`, PKCS7 (R191). -/
def pad (p : Bytes) : Bytes :=
  let n := 16 - p.length % 16
  p ++ List.replicate n (BitVec.ofNat 8 n)

/-- `Unpad(d)`; `none` is InvalidPadding (R192). -/
def unpad (d : Bytes) : Option Bytes :=
  match d.getLast? with
  | none => none
  | some b =>
    let n := b.toNat
    if n < 1 ∨ n > 16 then none
    else if (d.drop (d.length - n)).all (· == b) then some (d.take (d.length - n))
    else none

/-- A block read as a big-endian number: byte 0 most significant (R193). -/
def blockValue (c : Block) : Nat :=
  c.toList.foldl (fun v b => v * 256 + b.toNat) 0

/-- The block whose big-endian value is `v` (R193). -/
def blockOfValue (v : Nat) : Block :=
  Vector.ofFn fun i : Fin 16 => BitVec.ofNat 8 (v / 256 ^ (15 - i.val))

/-- `CtrInc(c)` (R193). -/
def ctrInc (c : Block) : Block :=
  blockOfValue ((blockValue c + 1) % 2 ^ 128)

/-- `XorPrefix(a, k, t)` with `t = len(a) <= 16`: the first `t` bytes of the keystream block are used (R194). -/
def xorPrefix (a : Bytes) (k : Block) : Bytes :=
  List.zipWith (· ^^^ ·) a k.toList

/-- What a segment loop leaves: the registers `S` and `CV`, and the bytes it produced. -/
structure Run where
  st : Block
  cv : Block
  out : Bytes
  deriving DecidableEq, Repr

/-- A loop's run with the output of the segment before it put in front. -/
def Run.after (out : Bytes) (r : Run) : Run :=
  { r with out := out ++ r.out }

/-- The block loop of `ENCECB` and `DECECB`, with `f` the block operation (R196, R197). -/
def ecbLoop (f : Block → Block) : Block → Block → List Block → Run
  | st, cv, [] => ⟨st, cv, []⟩
  | _, cv, b :: bs =>
    let c := f b
    (ecbLoop f c cv bs).after c.toList

/-- The block loop of `ENCCBC` (R198). -/
def cbcEncLoop (e : Block → Block) : Block → Block → List Block → Run
  | st, cv, [] => ⟨st, cv, []⟩
  | _, cv, b :: bs =>
    let c := e (xorBlock b cv)
    (cbcEncLoop e c c bs).after c.toList

/-- The block loop of `DECCBC` (R199). -/
def cbcDecLoop (d : Block → Block) : Block → Block → List Block → Run
  | st, cv, [] => ⟨st, cv, []⟩
  | _, cv, c :: bs =>
    let p := d c
    (cbcDecLoop d p c bs).after (xorBlock p cv).toList

/-- `if t = 16: CV <- c` (R200, R201). -/
def feedBack (c : Bytes) (cv : Block) : Block :=
  if c.length = 16 then toBlock c else cv

/-- The segment loop of `ENCCFB` (R200). -/
def cfbEncLoop (e : Block → Block) : Block → Block → List Bytes → Run
  | st, cv, [] => ⟨st, cv, []⟩
  | _, cv, x :: xs =>
    let k := e cv
    let c := xorPrefix x k
    (cfbEncLoop e k (feedBack c cv) xs).after c

/-- The segment loop of `DECCFB`: the feedback is the input segment (R201). -/
def cfbDecLoop (e : Block → Block) : Block → Block → List Bytes → Run
  | st, cv, [] => ⟨st, cv, []⟩
  | _, cv, c :: xs =>
    let k := e cv
    (cfbDecLoop e k (feedBack c cv) xs).after (xorPrefix c k)

/-- The segment loop of `ENCOFB` and `DECOFB` (R202, R203). -/
def ofbLoop (e : Block → Block) : Block → Block → List Bytes → Run
  | st, cv, [] => ⟨st, cv, []⟩
  | _, cv, x :: xs =>
    let k := e cv
    (ofbLoop e k k xs).after (xorPrefix x k)

/-- The segment loop of `ENCCTR` and `DECCTR` (R204, R205). -/
def ctrLoop (e : Block → Block) : Block → Block → List Bytes → Run
  | st, cv, [] => ⟨st, cv, []⟩
  | _, cv, x :: xs =>
    let k := e cv
    (ctrLoop e k (ctrInc cv) xs).after (xorPrefix x k)

/-- The end of a mode command whose output is what the loop produced (R196, R198, R200 to R205). -/
def finishRun (r : Run) (s : State) : State :=
  finish (storeOutput r.out (setWorking r.st r.cv s))

/-- The end of a decrypting command with padding: the padding is removed, or InvalidPadding is raised after the loop and no
decrypted byte reaches `DOUT` (R197, R199; 60_exceptions.md R249). -/
def finishUnpadded (r : Run) (s : State) : State :=
  match unpad r.out with
  | none => raise .invalidPadding (setWorking r.st r.cv s)
  | some p => finish (storeOutput p (setWorking r.st r.cv s))

end Sys2Proof.Machine
end

