-- ==== Sys2Proof/Machine/Modes.lean ====
section
/-! DEFINITION. The ten mode commands (44_modes.md R196 to R205). ECB neither reads nor writes `CV` and starts from the held
value; the chained modes start from `CV <- IV`. -/

namespace Sys2Proof.Machine

/-- `ENCECB` (R196). -/
def execEncecb (s : State) : Result :=
  runData (modeCheck false false)
    (fun nr t => finishRun (ecbLoop (encryptBlock t.rk nr) t.st t.cv (blocks (pad (message t)))) t) s

/-- `DECECB` (R197). -/
def execDececb (s : State) : Result :=
  runData (modeCheck false true)
    (fun nr t => finishUnpadded (ecbLoop (decryptBlock t.rk nr) t.st t.cv (blocks (message t))) t) s

/-- `ENCCBC` (R198). -/
def execEnccbc (s : State) : Result :=
  runData (modeCheck true false)
    (fun nr t => finishRun (cbcEncLoop (encryptBlock t.rk nr) t.st t.iv (blocks (pad (message t)))) t) s

/-- `DECCBC` (R199). -/
def execDeccbc (s : State) : Result :=
  runData (modeCheck true true)
    (fun nr t => finishUnpadded (cbcDecLoop (decryptBlock t.rk nr) t.st t.iv (blocks (message t))) t) s

/-- `ENCCFB` (R200). -/
def execEnccfb (s : State) : Result :=
  runData (modeCheck true false)
    (fun nr t => finishRun (cfbEncLoop (encryptBlock t.rk nr) t.st t.iv (segments (message t))) t) s

/-- `DECCFB`: the forward cipher, also when decrypting (R201). -/
def execDeccfb (s : State) : Result :=
  runData (modeCheck true false)
    (fun nr t => finishRun (cfbDecLoop (encryptBlock t.rk nr) t.st t.iv (segments (message t))) t) s

/-- `ENCOFB` (R202). -/
def execEncofb (s : State) : Result :=
  runData (modeCheck true false)
    (fun nr t => finishRun (ofbLoop (encryptBlock t.rk nr) t.st t.iv (segments (message t))) t) s

/-- `DECOFB`, word for word `ENCOFB` (R203). -/
def execDecofb (s : State) : Result :=
  runData (modeCheck true false)
    (fun nr t => finishRun (ofbLoop (encryptBlock t.rk nr) t.st t.iv (segments (message t))) t) s

/-- `ENCCTR` (R204). -/
def execEncctr (s : State) : Result :=
  runData (modeCheck true false)
    (fun nr t => finishRun (ctrLoop (encryptBlock t.rk nr) t.st t.iv (segments (message t))) t) s

/-- `DECCTR`, word for word `ENCCTR` (R205). -/
def execDecctr (s : State) : Result :=
  runData (modeCheck true false)
    (fun nr t => finishRun (ctrLoop (encryptBlock t.rk nr) t.st t.iv (segments (message t))) t) s

end Sys2Proof.Machine
end

