-- ==== Sys2Proof/Machine/Dispatch.lean ====
section
/-! DEFINITION. One arm per command (30_encoding.md R92). -/

namespace Sys2Proof.Machine

def exec (i : Instr) (s : State) : Host.Outcome State Fault Refusal :=
  match i with
  | .expand => Sys2Proof.Machine.execExpand s
  | .encblk => Sys2Proof.Machine.execEncblk s
  | .decblk => Sys2Proof.Machine.execDecblk s
  | .encecb => Sys2Proof.Machine.execEncecb s
  | .dececb => Sys2Proof.Machine.execDececb s
  | .enccbc => Sys2Proof.Machine.execEnccbc s
  | .deccbc => Sys2Proof.Machine.execDeccbc s
  | .enccfb => Sys2Proof.Machine.execEnccfb s
  | .deccfb => Sys2Proof.Machine.execDeccfb s
  | .encofb => Sys2Proof.Machine.execEncofb s
  | .decofb => Sys2Proof.Machine.execDecofb s
  | .encctr => Sys2Proof.Machine.execEncctr s
  | .decctr => Sys2Proof.Machine.execDecctr s
  | .clear => Sys2Proof.Machine.execClear s

end Sys2Proof.Machine
end

