-- ==== Sys2Proof/Machine/HostPort.lean ====
section
/-! DEFINITION. The host port (20_memory.md R60, R61) and the register map (10_state.md R36, R37): every write but that to `CMD`,
and every read. -/

namespace Sys2Proof.Machine

/-- `MAXLEN` as the 32-bit value its four read-only bytes show (10_state.md R33). -/
def maxLenWord : BitVec 32 :=
  BitVec.ofNat 32 Config.maxLen

/-- A write to space `REG` at an address other than `CMD` (R61); read-only, reserved and out-of-range addresses have no effect
(10_state.md R37). -/
def regWrite (a : Nat) (data : Byte) (s : State) : State :=
  if a = 0x02 then { s with keylen := data }
  else if a = 0x03 then { s with ivlen := data }
  else if 0x04 ≤ a ∧ a ≤ 0x07 then { s with len := withByte s.len (a - 0x04) data }
  else if h : 0x10 ≤ a ∧ a ≤ 0x1F then { s with iv := s.iv.set (a - 0x10) data (by omega) }
  else if h : 0x20 ≤ a ∧ a ≤ 0x3F then { s with key := s.key.set (a - 0x20) data (by omega) }
  else s

/-- A write to space `DIN` (R61, R63). -/
def dinWrite (a : Nat) (data : Byte) (s : State) : State :=
  if a < Config.maxLen then { s with din := s.din.write a data } else s

/-- `HostWrite(sel, addr, data)` but for a write to `CMD` (R61); `DOUT` and `RKMEM` are read-only. -/
def portWrite (sel : BitVec 2) (addr : BitVec 32) (data : Byte) (s : State) : State :=
  if sel = 0#2 then regWrite addr.toNat data s
  else if sel = 1#2 then dinWrite addr.toNat data s
  else s

/-- A read of space `REG` (R61, 10_state.md R36): `CMD`, reserved and out-of-range addresses read 0x00. -/
def regRead (a : Nat) (s : State) : Byte :=
  if a = 0x01 then s.err
  else if a = 0x02 then s.keylen
  else if a = 0x03 then s.ivlen
  else if 0x04 ≤ a ∧ a ≤ 0x07 then byteOf s.len (a - 0x04)
  else if 0x08 ≤ a ∧ a ≤ 0x0B then byteOf s.olen (a - 0x08)
  else if a = 0x0C then s.nk
  else if a = 0x0D then s.nr
  else if a = 0x0E then s.rkcnt
  else if h : 0x10 ≤ a ∧ a ≤ 0x1F then s.iv[a - 0x10]'(by omega)
  else if h : 0x20 ≤ a ∧ a ≤ 0x3F then s.key[a - 0x20]'(by omega)
  else if 0x40 ≤ a ∧ a ≤ 0x43 then byteOf maxLenWord (a - 0x40)
  else 0x00#8

/-- A read of space `RKMEM`: address `16k + i` is `RK[k][i]` (20_memory.md R65). -/
def rkRead (a : Nat) (s : State) : Byte :=
  if h : a < 240 then (s.rk[a / 16]'(by omega))[a % 16] else 0x00#8

/-- `HostRead(sel, addr)` (R61); an address outside the space's range reads 0x00 (R66). -/
def portRead (sel : BitVec 2) (addr : BitVec 32) (s : State) : Byte :=
  if sel = 0#2 then regRead addr.toNat s
  else if sel = 1#2 then (if addr.toNat < Config.maxLen then s.din.read addr.toNat else 0x00#8)
  else if sel = 2#2 then (if addr.toNat < Config.maxLen + 16 then s.dout.read addr.toNat else 0x00#8)
  else rkRead addr.toNat s

/-- A read transaction: its value goes to the host; no state of the core changes (R61, R71). -/
def hostRead (sel : BitVec 2) (addr : BitVec 32) (s : State) : State :=
  { s with reads := s.reads ++ [portRead sel addr s] }

end Sys2Proof.Machine
end

