-- ==== Sys2Proof/Machine/Command.lean ====
section
/-! DEFINITION. What one event of the host does (20_memory.md R61; 30_encoding.md R93; 70_reset_and_hazards.md R270). -/

namespace Sys2Proof.Machine

/-- A write of byte `v` to `CMD`: the command it encodes runs to its end, or IllegalCommand is raised (30_encoding.md R93). -/
def runCommand (v : Byte) (s : State) : Result :=
  match decode v with
  | .command i => exec i s
  | .illegal _ => .next (illegalCommand s)

/-- `HostWrite(sel, addr, data)` (20_memory.md R61). -/
def hostWrite (sel : BitVec 2) (addr : BitVec 32) (data : Byte) (s : State) : Result :=
  if sel = 0#2 ∧ addr = 0#32 then runCommand data s else .next (portWrite sel addr data s)

/-- One event of the host on the core. -/
def hostEvent (e : HostEvent) (s : State) : Result :=
  match e with
  | .write sel addr data => hostWrite sel addr data s
  | .read sel addr => .next (hostRead sel addr s)
  | .reset => .next (zeroCore s)

/-- The write to `CMD` that a word of `nbits` bits stands for. -/
def commandWrite (nbits w : Nat) : HostEvent :=
  .write 0#2 0#32 (commandByte nbits w)

end Sys2Proof.Machine
end

