-- ==== Sys2Proof/Machine/Step.lean ====
section
/-! DEFINITION. One step of the machine is one event of the host (00_scope.md R7; 70_reset_and_hazards.md R280). -/

namespace Sys2Proof.Machine

/-- The oldest pending event of the host is taken from the list and done. With none pending the core is idle and nothing
changes (R271, R280; log entry 4). -/
def step (s : State) : Host.Outcome State Fault Refusal :=
  match s.host with
  | [] => .next s
  | e :: rest => hostEvent e { s with host := rest }

/-- `s` with a write of the command byte to `CMD` put in front of the host's pending events: the core fetches nothing, the host
pushes each command into `CMD` (10_state.md R40; log entry 5). -/
def State.withFetchWord (s : State) (nbits w : Nat) : State :=
  { s with host := commandWrite nbits w :: s.host }

end Sys2Proof.Machine
end

