-- ==== Sys2Proof/Machine/Script.lean ====
section
/-! DEFINITION. Host programs (30_encoding.md R98 to R102): a script is a list of transactions, the pseudo-instructions expand
to scripts, and the source's operations run scripts and stop at the first non-zero `ERR`. -/

namespace Sys2Proof.Machine

/-- Four bits as a hexadecimal digit. -/
def hexDigit (n : Nat) : Char :=
  Char.ofNat (if n % 16 < 10 then 48 + n % 16 else 87 + n % 16)

/-- `k` hexadecimal digits of a number, most significant first. -/
def hexDigits : Nat → Nat → List Char
  | 0, _ => []
  | k + 1, n => hexDigits k (n / 16) ++ [hexDigit n]

/-- The encoding column of R98: `W s aaaaaaaa dd`, `R s aaaaaaaa`. Reset is no transaction and has no line. -/
def HostEvent.scriptLine : HostEvent → Option (List Char)
  | .write sel addr data => some (['W', ' '] ++ hexDigits 1 sel.toNat ++ [' '] ++ hexDigits 8 addr.toNat ++ [' '] ++ hexDigits 2 data.toNat)
  | .read sel addr => some (['R', ' '] ++ hexDigits 1 sel.toNat ++ [' '] ++ hexDigits 8 addr.toNat)
  | .reset => none

/-- `<MNEMONIC>`: the write of its byte to `CMD` (R98). -/
def command (i : Instr) : HostEvent :=
  .write 0#2 0#32 (encode i)

/-- `WR <space>, base + i, x[i]` for `i` in 0..len(x) - 1. -/
def writesFrom (sel : BitVec 2) (base : Nat) : Bytes → List HostEvent
  | [] => []
  | b :: x => .write sel (BitVec.ofNat 32 base) b :: writesFrom sel (base + 1) x

/-- `RD <space>, base + i` for `i` in 0..n - 1. -/
def readsFrom (sel : BitVec 2) (base : Nat) : Nat → List HostEvent
  | 0 => []
  | n + 1 => .read sel (BitVec.ofNat 32 base) :: readsFrom sel (base + 1) n

/-- `SETKEY k` (R99, R101). -/
def setKey (k : Bytes) : List HostEvent :=
  writesFrom 0#2 0x20 (k.take 32) ++ [.write 0#2 0x02#32 (BitVec.ofNat 8 (min k.length 255))]

/-- `SETIV v` (R99, R101). -/
def setIv (v : Bytes) : List HostEvent :=
  writesFrom 0#2 0x10 (v.take 16) ++ [.write 0#2 0x03#32 (BitVec.ofNat 8 (min v.length 255))]

/-- `SETDATA d`, for `len(d) < 2^32` (R99, R101). -/
def setData (d : Bytes) : List HostEvent :=
  let n := BitVec.ofNat 32 d.length
  writesFrom 1#2 0 (d.take Config.maxLen) ++
    writesFrom 0#2 0x04 [byteOf n 0, byteOf n 1, byteOf n 2, byteOf n 3]

/-- `GETERR` (R99). -/
def getErr : List HostEvent :=
  readsFrom 0#2 0x01 1

/-- The first part of `GETOUT`: `RD OLEN0`..`RD OLEN3` (R99). -/
def getOutLen : List HostEvent :=
  readsFrom 0#2 0x08 4

/-- The second part of `GETOUT`, for the length `m` that the first part read (R99). -/
def getOutBytes (m : Nat) : List HostEvent :=
  readsFrom 2#2 0 m

/-- The first part of `GETSCHED`: `RD RKCNT` (R99). -/
def getSchedCount : List HostEvent :=
  readsFrom 0#2 0x0E 1

/-- The second part of `GETSCHED`, for the count `c` that the first part read (R99). -/
def getSchedBytes (c : Nat) : List HostEvent :=
  readsFrom 3#2 0 (16 * c)

/-- The first `n` steps of a state; a fault or a refusal ends them. -/
def runSteps : Nat → State → Result
  | 0, s => .next s
  | n + 1, s =>
    match step s with
    | .next t => runSteps n t
    | .fault r => .fault r
    | .refused r => .refused r

/-- A script run from a state: its transactions are put in front of the host's pending events and done. -/
def runScript (script : List HostEvent) (s : State) : Result :=
  runSteps script.length { s with host := script ++ s.host }

/-- What one of the source's operations gives its caller (R100): an error kind's code, or a byte sequence. -/
inductive CallResult where
  | error (code : Byte)
  | output (x : Bytes)
  deriving DecidableEq, Repr

/-- An operation of the source run from a state: the state after it and its result. -/
abbrev Call := Host.Outcome (State × CallResult) Fault Refusal

/-- Run a script, then go on with the state it leaves. -/
def andThen (script : List HostEvent) (k : State → Call) (s : State) : Call :=
  match runScript script s with
  | .next t => k t
  | .fault r => .fault r
  | .refused r => .refused r

/-- The last `n` bytes that were read. -/
def lastReads (n : Nat) (s : State) : Bytes :=
  s.reads.drop (s.reads.length - n)

/-- A script ending in `GETERR`: a non-zero `ERR` ends the operation with that error kind (R100). -/
def checked (script : List HostEvent) (k : State → Call) (s : State) : Call :=
  andThen (script ++ getErr)
    (fun t => if t.reads.getLastD 0x00#8 = 0x00#8 then k t else .next (t, .error (t.reads.getLastD 0x00#8))) s

/-- `GETOUT` (R99). -/
def getOut (s : State) : Call :=
  andThen getOutLen
    (fun t =>
      let x := lastReads 4 t
      let m := (assemble (x.getD 0 0x00#8) (x.getD 1 0x00#8) (x.getD 2 0x00#8) (x.getD 3 0x00#8)).toNat
      andThen (getOutBytes m) (fun u => .next (u, .output (lastReads m u))) t) s

/-- `GETSCHED` (R99). -/
def getSched (s : State) : Call :=
  andThen getSchedCount
    (fun t =>
      let c := (t.reads.getLastD 0x00#8).toNat
      andThen (getSchedBytes c) (fun u => .next (u, .output (lastReads (16 * c) u))) t) s

/-! The source's operations, one definition for each row of R100. -/

/-- The part of an operation that makes a schedule: a wrong key length ends the operation here, before anything else is
checked. -/
def keyed (key : Bytes) (k : State → Call) (s : State) : Call :=
  checked (setKey key ++ [command .expand]) k s

/-- `Expand(key)` (R100). -/
def callExpand (key : Bytes) (s : State) : Call :=
  keyed key getSched s

/-- `SETIV` for an operation that takes an initialization vector, nothing for one that takes none. -/
def loadIv : Option Bytes → List HostEvent
  | none => []
  | some v => setIv v

/-- The part of an operation that follows the schedule: the operands, the data command `i`, `GETERR`, `GETOUT`. It stands alone
when the host keeps a schedule across several data commands, leaving out `SETKEY; EXPAND; GETERR` (R100). -/
def callHeld (i : Instr) (iv : Option Bytes) (text : Bytes) (s : State) : Call :=
  checked (loadIv iv ++ setData text ++ [command i]) getOut s

/-- A data command as a whole operation, its schedule derived fresh (R100). -/
def callData (i : Instr) (key : Bytes) (iv : Option Bytes) (text : Bytes) (s : State) : Call :=
  keyed key (callHeld i iv text) s

/-- `Encrypt(text, key)` (R100). -/
def callEncrypt (text key : Bytes) (s : State) : Call :=
  callData .encblk key none text s

/-- `Decrypt(text, key)` (R100). -/
def callDecrypt (text key : Bytes) (s : State) : Call :=
  callData .decblk key none text s

/-- `Encrypt_ECB(text, key)` (R100). -/
def callEncryptEcb (text key : Bytes) (s : State) : Call :=
  callData .encecb key none text s

/-- `Decrypt_ECB(text, key)` (R100). -/
def callDecryptEcb (text key : Bytes) (s : State) : Call :=
  callData .dececb key none text s

/-- The modes `M` of `Encrypt_M` and `Decrypt_M`, which take an initialization vector (R100). -/
inductive IvMode where
  | cbc
  | cfb
  | ofb
  | ctr
  deriving DecidableEq, Repr

/-- `ENC<M>`. -/
def encCommand : IvMode → Instr
  | .cbc => .enccbc
  | .cfb => .enccfb
  | .ofb => .encofb
  | .ctr => .encctr

/-- `DEC<M>`. -/
def decCommand : IvMode → Instr
  | .cbc => .deccbc
  | .cfb => .deccfb
  | .ofb => .decofb
  | .ctr => .decctr

/-- `Encrypt_M(text, key, iv)` (R100). -/
def callEncryptMode (m : IvMode) (text key iv : Bytes) (s : State) : Call :=
  callData (encCommand m) key (some iv) text s

/-- `Decrypt_M(text, key, iv)` (R100). -/
def callDecryptMode (m : IvMode) (text key iv : Bytes) (s : State) : Call :=
  callData (decCommand m) key (some iv) text s

/-- `EncryptBlock(block16, roundKeys)` with the schedule already held (R100). -/
def callEncryptBlock (block : Bytes) (s : State) : Call :=
  callHeld .encblk none block s

/-- `DecryptBlock(block16, roundKeys)` with the schedule already held (R100). -/
def callDecryptBlock (block : Bytes) (s : State) : Call :=
  callHeld .decblk none block s

/-- `SecureErase` of everything: `CLEAR`; it gives its caller nothing (R100). -/
def secureErase (s : State) : Result :=
  runScript [command .clear] s

/-- An operation with the source's erase duty met by a final `CLEAR` (R100): its result is what the operation gave. -/
def thenErase (op : State → Call) (s : State) : Call :=
  match op s with
  | .next (t, r) => andThen [command .clear] (fun u => .next (u, r)) t
  | .fault r => .fault r
  | .refused r => .refused r

end Sys2Proof.Machine
end

