-- ==== Sys2Proof/Safety.lean ====
section
/-! DEFINITION. What counts as a legal state and a safe run, in the terms the statements use: the invariants of 10_state.md R39
and the canonical form of the buffers; the classes of commands, and the words in which results are stated. -/

namespace Sys2Proof

/-- `ENCBLK` and `DECBLK`, the raw single-block commands (43_block_cipher.md R173, R174). -/
def Instr.isRaw : Instr → Bool
  | .encblk | .decblk => true
  | .expand | .encecb | .dececb | .enccbc | .deccbc | .enccfb | .deccfb | .encofb | .decofb | .encctr | .decctr | .clear => false

/-- The ten mode commands (44_modes.md R196 to R205). -/
def Instr.isMode : Instr → Bool
  | .encecb | .dececb | .enccbc | .deccbc | .enccfb | .deccfb | .encofb | .decofb | .encctr | .decctr => true
  | .expand | .encblk | .decblk | .clear => false

/-- The data commands: the raw single-block commands and the mode commands (60_exceptions.md R240). -/
def Instr.isData (i : Instr) : Bool :=
  i.isRaw || i.isMode

/-- The mode commands that need an IV, all but ECB (44_modes.md R195). -/
def Instr.needsIv : Instr → Bool
  | .enccbc | .deccbc | .enccfb | .deccfb | .encofb | .decofb | .encctr | .decctr => true
  | .expand | .encblk | .decblk | .encecb | .dececb | .clear => false

/-- The mode commands whose input must be whole blocks (44_modes.md R195). -/
def Instr.wholeBlocks : Instr → Bool
  | .dececb | .deccbc => true
  | .expand | .encblk | .decblk | .encecb | .enccbc | .enccfb | .deccfb | .encofb | .decofb | .encctr | .decctr | .clear => false

end Sys2Proof

namespace Sys2Proof.Machine

/-- `NK`, `NR`, `RKCNT` take only the four joint values of R28 (R39 item 1). -/
def State.DescriptorsLegal (s : State) : Prop :=
  (s.nk = 0#8 ∧ s.nr = 0#8 ∧ s.rkcnt = 0#8) ∨ (s.nk = 4#8 ∧ s.nr = 10#8 ∧ s.rkcnt = 11#8) ∨
  (s.nk = 6#8 ∧ s.nr = 12#8 ∧ s.rkcnt = 13#8) ∨ (s.nk = 8#8 ∧ s.nr = 14#8 ∧ s.rkcnt = 15#8)

/-- With no schedule held every byte of `RK` is zero; with one held `RK[0..NR]` is `ExpandKey` of some key of `4 NK` bytes and the
entries above `NR` are zero (R39 item 2). -/
def State.ScheduleLegal (s : State) : Prop :=
  (s.rkcnt = 0#8 → s.rk = zeroRoundKeys) ∧
  (s.rkcnt ≠ 0#8 →
    (∃ key : Bytes, key.length = 4 * s.nk.toNat ∧
      ∀ k : Fin 15, k.val ≤ s.nr.toNat → s.rk[k] = roundKey (scheduleWords s.nk.toNat s.nr.toNat key) k.val) ∧
    ∀ k : Fin 15, s.nr.toNat < k.val → s.rk[k] = zeroBlock)

/-- `OLEN <= MAXLEN + 16`, and `DOUT[i]` is zero for every `i >= OLEN` (R39 item 3). -/
def State.OutputLegal (s : State) : Prop :=
  s.olen.toNat ≤ Config.maxLen + 16 ∧ ∀ i : Nat, s.olen.toNat ≤ i → s.dout.read i = 0x00#8

/-- `ERR[7:3] = 0` (R39 item 4). -/
def State.ErrLegal (s : State) : Prop :=
  s.err.extractLsb' 3 5 = 0#5

/-- The buffers are in canonical form and hold nothing outside their address ranges (20_memory.md R63, R64). -/
def State.BuffersLegal (s : State) : Prop :=
  s.din.wf ∧ s.din.below Config.maxLen ∧ s.dout.wf ∧ s.dout.below (Config.maxLen + 16)

/-- The invariant of the machine between two host transactions (R39). -/
def State.Inv (s : State) : Prop :=
  s.DescriptorsLegal ∧ s.ScheduleLegal ∧ s.OutputLegal ∧ s.ErrLegal ∧ s.BuffersLegal

/-- A schedule is held, and its `NR` names an entry of the round-key file (R28, R172). -/
def State.Keyed (s : State) : Prop :=
  s.rkcnt.toNat = s.nr.toNat + 1 ∧ s.nr.toNat < 15

/-- `NR` as an index of the round-key file; meant for keyed states. -/
def State.lastRound (s : State) : Fin 15 :=
  Fin.ofNat 15 s.nr.toNat

/-- The preconditions of a data command other than the schedule: those of R195 for a mode command, `LEN = 16` for a raw one. -/
def State.Ready (i : Instr) (s : State) : Prop :=
  (i.isRaw = true → s.len.toNat = 16) ∧
  (i.isMode = true → s.len.toNat ≤ Config.maxLen) ∧
  (i.needsIv = true → s.ivlen.toNat = 16) ∧
  (i.wholeBlocks = true → s.len.toNat % 16 = 0)

/-- The cipher of the schedule held. -/
def State.encrypts (s : State) (b : Block) : Block :=
  encryptBlock s.rk s.lastRound b

/-- The inverse cipher of the schedule held. -/
def State.decrypts (s : State) (b : Block) : Block :=
  decryptBlock s.rk s.lastRound b

/-- The 16 bytes of a buffer from address `16j` on. -/
def readBlock (m : Memory) (j : Nat) : Block :=
  Vector.ofFn fun i : Fin 16 => m.read (16 * j + i.val)

/-- Block `j` of the padded input message: the bytes of `DIN` below `LEN`, and the pad length above (44_modes.md R191). -/
def paddedBlock (s : State) (j : Nat) : Block :=
  Vector.ofFn fun i : Fin 16 =>
    if 16 * j + i.val < s.len.toNat then s.din.read (16 * j + i.val)
    else BitVec.ofNat 8 (16 - s.len.toNat % 16)

/-- Byte `a` of the sequence of blocks `f 0`, `f 1`, ... -/
def byteAt (f : Nat → Block) (a : Nat) : Byte :=
  (f (a / 16))[a % 16]

/-- The `n` bytes `d 0` to `d (n-1)` end in valid padding (44_modes.md R192). -/
def PaddingValid (d : Nat → Byte) (n : Nat) : Prop :=
  0 < n ∧ 1 ≤ (d (n - 1)).toNat ∧ (d (n - 1)).toNat ≤ 16 ∧
    ∀ a, n - (d (n - 1)).toNat ≤ a → a < n → d a = d (n - 1)

/-- The same outcome with its next state changed by `f`. -/
def mapNext (f : State → State) : Result → Result
  | .next t => .next (f t)
  | .fault r => .fault r
  | .refused r => .refused r

/-- A safe run: none of the first `n` steps stops. -/
def Safe (n : Nat) (s : State) : Prop :=
  ∃ t, runSteps n s = .next t

end Sys2Proof.Machine
end

