-- ==== Sys2Proof/Certificates/Slice0/Obligations.lean ====
section
/-! DEFINITION. The statements about the model, from the numbered rules of spec/. -/

open Sys2Proof Sys2Proof.Machine

/-! Encoding and decoding. -/

/-- R92, R93: decoding the byte of a command gives the command back, and no other byte decodes to it. -/
def Obligations.DecodeEncodeAgree : Prop :=
  (∀ i : Instr, i.wellFormed = true ∧ decode (encode i) = .command i) ∧
  ∀ (v : Byte) (i : Instr), decode v = .command i → v = encode i

/-- R92: the bits of the table decode to the commands they stand for, at least one of each class of R91. -/
def Obligations.TableBytesDecode : Prop :=
  decode 0b00010000#8 = .command .expand ∧ decode 0b00100001#8 = .command .decblk ∧
  decode 0b00110010#8 = .command .enccbc ∧ decode 0b00111001#8 = .command .decctr ∧
  decode 0b11110000#8 = .command .clear

/-- R96: each of the 242 illegal bytes written to `CMD` does `ERR <- 7` and changes nothing else. -/
def Obligations.IllegalByteOnlySetsErr : Prop :=
  ∀ (s : State) (v : Byte) (rest : List HostEvent),
    s.host = .write 0#2 0#32 v :: rest →
    (v.toNat ≤ 0x0F ∨ (0x11 ≤ v.toNat ∧ v.toNat ≤ 0x1F) ∨ (0x22 ≤ v.toNat ∧ v.toNat ≤ 0x2F) ∨
      (0x3A ≤ v.toNat ∧ v.toNat ≤ 0xEF) ∨ 0xF1 ≤ v.toNat) →
    step s = .next { s with host := rest, err := 7#8 }

/-! The step. -/

/-- R93: a write to `CMD` of a byte that decodes to a command runs that command, on the state without the write. -/
def Obligations.StepRunsDecodedCommand : Prop :=
  ∀ (s : State) (v : Byte) (i : Instr) (rest : List HostEvent),
    s.host = .write 0#2 0#32 v :: rest → decode v = .command i → i.wellFormed = true →
    step s = exec i { s with host := rest }

/-- R61, R71: a read gives the byte of the register map to the host and changes no state of the core. -/
def Obligations.StepReadChangesNoState : Prop :=
  ∀ (s : State) (sel : BitVec 2) (addr : BitVec 32) (rest : List HostEvent),
    s.host = .read sel addr :: rest →
    step s = .next { s with host := rest, reads := s.reads ++ [portRead sel addr s] }

/-- The model's choice (log entry 4), from R271 and R280: with no transaction pending a step changes nothing. -/
def Obligations.IdleStepChangesNothing : Prop :=
  ∀ s : State, s.host = [] → step s = .next s

/-! Reset. -/

/-- R42: after reset every storage element is zero. -/
def Obligations.ResetStateIsZero : Prop :=
  (∀ i : Fin 32, State.reset.key[i] = 0#8) ∧ State.reset.keylen = 0#8 ∧
  (∀ i : Fin 16, State.reset.iv[i] = 0#8) ∧ State.reset.ivlen = 0#8 ∧
  State.reset.len = 0#32 ∧ State.reset.olen = 0#32 ∧ State.reset.err = 0#8 ∧
  State.reset.nk = 0#8 ∧ State.reset.nr = 0#8 ∧ State.reset.rkcnt = 0#8 ∧
  (∀ (k : Fin 15) (i : Fin 16), State.reset.rk[k][i] = 0#8) ∧
  (∀ i : Fin 16, State.reset.st[i] = 0#8) ∧ (∀ i : Fin 16, State.reset.cv[i] = 0#8) ∧
  (∀ a : Nat, State.reset.din.read a = 0#8) ∧ (∀ a : Nat, State.reset.dout.read a = 0#8) ∧
  ∀ k : Fin 4, portRead 0#2 (BitVec.ofNat 32 (0x40 + k.val)) State.reset =
    BitVec.ofNat 8 (Config.maxLen / 256 ^ k.val)

/-- R270, R271: the reset event gives the reset state, whatever was before. That the host's pending events and the bytes it has
read stay is the model's choice (log entry 6). -/
def Obligations.ResetEventResetsTheCore : Prop :=
  ∀ (s : State) (rest : List HostEvent), s.host = .reset :: rest →
    step s = .next { State.reset with host := rest, reads := s.reads }

/-- R272: what the commands do in the reset state, and what the host reads there. -/
def Obligations.CommandsInResetState : Prop :=
  exec .expand State.reset = .next { State.reset with err := 1#8 } ∧
  (∀ i : Instr, i.isData = true → exec i State.reset = .next { State.reset with err := 5#8 }) ∧
  exec .clear State.reset = .next State.reset ∧
  (∀ v : Byte, (∀ i, encode i ≠ v) → runCommand v State.reset = .next { State.reset with err := 7#8 }) ∧
  ∀ (sel : BitVec 2) (addr : BitVec 32), ¬ (sel = 0#2 ∧ 0x40 ≤ addr.toNat ∧ addr.toNat ≤ 0x43) →
    portRead sel addr State.reset = 0x00#8

/-! The host port. -/

/-- R61, R36: what each address of the four spaces reads as. -/
def Obligations.PortReadsTheRegisterMap : Prop :=
  ∀ s : State,
    portRead 0#2 0x00#32 s = 0x00#8 ∧ portRead 0#2 0x01#32 s = s.err ∧
    portRead 0#2 0x02#32 s = s.keylen ∧ portRead 0#2 0x03#32 s = s.ivlen ∧
    (∀ k : Fin 4, portRead 0#2 (BitVec.ofNat 32 (0x04 + k.val)) s = BitVec.ofNat 8 (s.len.toNat / 256 ^ k.val)) ∧
    (∀ k : Fin 4, portRead 0#2 (BitVec.ofNat 32 (0x08 + k.val)) s = BitVec.ofNat 8 (s.olen.toNat / 256 ^ k.val)) ∧
    portRead 0#2 0x0C#32 s = s.nk ∧ portRead 0#2 0x0D#32 s = s.nr ∧ portRead 0#2 0x0E#32 s = s.rkcnt ∧
    (∀ i : Fin 16, portRead 0#2 (BitVec.ofNat 32 (0x10 + i.val)) s = s.iv[i]) ∧
    (∀ i : Fin 32, portRead 0#2 (BitVec.ofNat 32 (0x20 + i.val)) s = s.key[i]) ∧
    (∀ k : Fin 4, portRead 0#2 (BitVec.ofNat 32 (0x40 + k.val)) s = BitVec.ofNat 8 (Config.maxLen / 256 ^ k.val)) ∧
    (∀ a : BitVec 32, a.toNat < Config.maxLen → portRead 1#2 a s = s.din.read a.toNat) ∧
    (∀ a : BitVec 32, a.toNat < Config.maxLen + 16 → portRead 2#2 a s = s.dout.read a.toNat) ∧
    ∀ (k : Fin 15) (i : Fin 16), portRead 3#2 (BitVec.ofNat 32 (16 * k.val + i.val)) s = s.rk[k][i]

/-- R61, R36, R69: a byte written to a writable address reads back as written, every other address of every space reads as
before, and the two hidden registers keep their values. -/
def Obligations.WrittenByteReadsBack : Prop :=
  ∀ (s : State) (sel : BitVec 2) (addr : BitVec 32) (data : Byte) (rest : List HostEvent),
    s.din.wf → s.host = .write sel addr data :: rest →
    (sel = 0#2 ∧ ((0x02 ≤ addr.toNat ∧ addr.toNat ≤ 0x07) ∨ (0x10 ≤ addr.toNat ∧ addr.toNat ≤ 0x3F))) ∨
      (sel = 1#2 ∧ addr.toNat < Config.maxLen) →
    ∃ t, step s = .next t ∧ portRead sel addr t = data ∧
      (∀ (sel' : BitVec 2) (addr' : BitVec 32), ¬ (sel' = sel ∧ addr' = addr) → portRead sel' addr' t = portRead sel' addr' s) ∧
      t.st = s.st ∧ t.cv = s.cv ∧ t.host = rest ∧ t.reads = s.reads

/-- R37: writes to read-only registers, to reserved addresses and to `REG` above 0xFF change no state; reads of reserved
addresses, of `CMD` and of `REG` above 0xFF return 0x00 and change no state. -/
def Obligations.ReservedAddressesInert : Prop :=
  ∀ (s : State) (addr : BitVec 32) (data : Byte) (rest : List HostEvent),
    (s.host = .write 0#2 addr data :: rest →
      addr.toNat = 0x01 ∨ (0x08 ≤ addr.toNat ∧ addr.toNat ≤ 0x0F) ∨ 0x40 ≤ addr.toNat →
      step s = .next { s with host := rest }) ∧
    (s.host = .read 0#2 addr :: rest →
      addr.toNat = 0x00 ∨ addr.toNat = 0x0F ∨ 0x44 ≤ addr.toNat →
      step s = .next { s with host := rest, reads := s.reads ++ [0x00#8] })

/-- R64, R65, R66: `DOUT` and `RKMEM` ignore writes, and an address outside a space's range ignores writes and reads 0x00. -/
def Obligations.OutOfRangeAddressesInert : Prop :=
  ∀ (s : State) (sel : BitVec 2) (addr : BitVec 32) (data : Byte) (rest : List HostEvent),
    (s.host = .write sel addr data :: rest →
      (sel = 0#2 ∧ 0xFF < addr.toNat) ∨ (sel = 1#2 ∧ Config.maxLen ≤ addr.toNat) ∨ sel = 2#2 ∨ sel = 3#2 →
      step s = .next { s with host := rest }) ∧
    (s.host = .read sel addr :: rest →
      (sel = 0#2 ∧ 0xFF < addr.toNat) ∨ (sel = 1#2 ∧ Config.maxLen ≤ addr.toNat) ∨
        (sel = 2#2 ∧ Config.maxLen + 16 ≤ addr.toNat) ∨ (sel = 3#2 ∧ 240 ≤ addr.toNat) →
      step s = .next { s with host := rest, reads := s.reads ++ [0x00#8] })

/-! Field arithmetic and tables. -/

/-- R112: the laws of the multiplier. -/
def Obligations.FieldMultiplierLaws : Prop :=
  (∀ a b : Byte, gfMul a b = gfMul b a) ∧
  (∀ a b c : Byte, gfMul a (b ^^^ c) = gfMul a b ^^^ gfMul a c) ∧
  (∀ a : Byte, gfMul a 0x01#8 = a ∧ gfMul a 0x00#8 = 0x00#8 ∧ gfMul a 0x02#8 = xtime a) ∧
  ∀ a : Byte, a ≠ 0x00#8 → ∃ b : Byte, gfMul a b = 0x01#8 ∧ ∀ c : Byte, gfMul a c = 0x01#8 → c = b

/-- R115: every entry of `SBOX` is the affine image of the inverse of its index. -/
def Obligations.SboxIsAffineOfInverse : Prop :=
  ∀ b : Byte, ∃ y : Byte, (b ≠ 0x00#8 → gfMul b y = 0x01#8) ∧ (b = 0x00#8 → y = 0x00#8) ∧
    sbox b = y ^^^ y.rotateLeft 1 ^^^ y.rotateLeft 2 ^^^ y.rotateLeft 3 ^^^ y.rotateLeft 4 ^^^ 0x63#8

/-- R116: `INVSBOX` is the inverse permutation of `SBOX`. -/
def Obligations.SubstitutionTablesInverse : Prop :=
  ∀ b : Byte, invSbox (sbox b) = b ∧ sbox (invSbox b) = b

/-! The block transforms. -/

/-- R131, R132, R137: SubBytes, InvSubBytes and AddRoundKey act on each byte alone; the first two undo each other, and
AddRoundKey undoes itself. -/
def Obligations.ByteTransformsPointwise : Prop :=
  (∀ (s k : Block) (i : Fin 16),
    (subBytes s)[i] = sbox s[i] ∧ (invSubBytes s)[i] = invSbox s[i] ∧ (addRoundKey s k)[i] = s[i] ^^^ k[i]) ∧
  ∀ s k : Block, invSubBytes (subBytes s) = s ∧ subBytes (invSubBytes s) = s ∧ addRoundKey (addRoundKey s k) k = s

/-- R133, R134: ShiftRows and InvShiftRows are the two printed permutations of positions, undo each other, and commute with the
byte substitutions. -/
def Obligations.ShiftRowsPermutations : Prop :=
  ∀ s : Block,
    shiftRows s = #v[s[0], s[5], s[10], s[15], s[4], s[9], s[14], s[3], s[8], s[13], s[2], s[7], s[12], s[1], s[6], s[11]] ∧
    invShiftRows s = #v[s[0], s[13], s[10], s[7], s[4], s[1], s[14], s[11], s[8], s[5], s[2], s[15], s[12], s[9], s[6], s[3]] ∧
    invShiftRows (shiftRows s) = s ∧ shiftRows (invShiftRows s) = s ∧
    invShiftRows (invSubBytes s) = invSubBytes (invShiftRows s) ∧ shiftRows (subBytes s) = subBytes (shiftRows s)

/-- R135, R136: the two matrix products, column by column. -/
def Obligations.MixColumnsMatrices : Prop :=
  ∀ (s : Block) (c : Fin 4) (a0 a1 a2 a3 : Byte),
    a0 = s[4 * c.val] → a1 = s[4 * c.val + 1] → a2 = s[4 * c.val + 2] → a3 = s[4 * c.val + 3] →
    (mixColumns s)[4 * c.val] = gfMul 0x02 a0 ^^^ gfMul 0x03 a1 ^^^ a2 ^^^ a3 ∧
    (mixColumns s)[4 * c.val + 1] = a0 ^^^ gfMul 0x02 a1 ^^^ gfMul 0x03 a2 ^^^ a3 ∧
    (mixColumns s)[4 * c.val + 2] = a0 ^^^ a1 ^^^ gfMul 0x02 a2 ^^^ gfMul 0x03 a3 ∧
    (mixColumns s)[4 * c.val + 3] = gfMul 0x03 a0 ^^^ a1 ^^^ a2 ^^^ gfMul 0x02 a3 ∧
    (invMixColumns s)[4 * c.val] = gfMul 0x0E a0 ^^^ gfMul 0x0B a1 ^^^ gfMul 0x0D a2 ^^^ gfMul 0x09 a3 ∧
    (invMixColumns s)[4 * c.val + 1] = gfMul 0x09 a0 ^^^ gfMul 0x0E a1 ^^^ gfMul 0x0B a2 ^^^ gfMul 0x0D a3 ∧
    (invMixColumns s)[4 * c.val + 2] = gfMul 0x0D a0 ^^^ gfMul 0x09 a1 ^^^ gfMul 0x0E a2 ^^^ gfMul 0x0B a3 ∧
    (invMixColumns s)[4 * c.val + 3] = gfMul 0x0B a0 ^^^ gfMul 0x0D a1 ^^^ gfMul 0x09 a2 ^^^ gfMul 0x0E a3

/-- R136: InvMixColumns undoes MixColumns and the other way round, and is linear. -/
def Obligations.MixColumnsInverse : Prop :=
  (∀ s : Block, invMixColumns (mixColumns s) = s ∧ mixColumns (invMixColumns s) = s) ∧
  ∀ s k : Block, invMixColumns (xorBlock s k) = xorBlock (invMixColumns s) (invMixColumns k)

/-! The key schedule. -/

/-- R152: the round constants. -/
def Obligations.RoundConstants : Prop :=
  rcon 1 = 0x01#8 ∧ (∀ i : Nat, 1 ≤ i → rcon (i + 1) = xtime (rcon i)) ∧
  ([1, 2, 3, 4, 5, 6, 7, 8, 9, 10, 11, 12, 13, 14].map rcon : List Byte) =
    [0x01, 0x02, 0x04, 0x08, 0x10, 0x20, 0x40, 0x80, 0x1B, 0x36, 0x6C, 0xD8, 0xAB, 0x4D]

/-- R154: the words of the schedule, seeded with the key and extended by the recurrence, and the round keys made of them. -/
def Obligations.ScheduleFollowsRecurrence : Prop :=
  ∀ (nk : Nat) (key : Bytes), nk = 4 ∨ nk = 6 ∨ nk = 8 → key.length = 4 * nk →
    (scheduleWords nk (nk + 6) key).length = 4 * (nk + 6 + 1) ∧
    (∀ (j : Nat) (i : Fin 4), j < nk →
      key[4 * j + i.val]? = some (wordAt (scheduleWords nk (nk + 6) key) j)[i]) ∧
    (∀ (j : Nat) (t : Word), nk ≤ j → j < 4 * (nk + 6 + 1) → t = wordAt (scheduleWords nk (nk + 6) key) (j - 1) →
      wordAt (scheduleWords nk (nk + 6) key) j =
        xorWord (wordAt (scheduleWords nk (nk + 6) key) (j - nk))
          (if j % nk = 0 then
            #v[sbox t[1] ^^^ rcon (j / nk), sbox t[2], sbox t[3], sbox t[0]]
          else if nk > 6 ∧ j % nk = 4 then #v[sbox t[0], sbox t[1], sbox t[2], sbox t[3]]
          else t)) ∧
    ∀ (k : Nat) (c i : Fin 4), k ≤ nk + 6 →
      (roundKey (scheduleWords nk (nk + 6) key) k)[4 * c.val + i.val] =
        (wordAt (scheduleWords nk (nk + 6) key) (4 * k + c.val))[i]

/-- R157: `EXPAND` with a legal key length fills the round-key file from `KEY[0..KEYLEN-1]` and writes `NK`, `NR`, `RKCNT`;
with any other it clears them and raises InvalidKeySize. Nothing else changes. -/
def Obligations.ExpandCommand : Prop :=
  ∀ (s : State) (n : Nat), s.keylen.toNat = n →
    (n = 16 ∨ n = 24 ∨ n = 32 →
      ∃ rk : RoundKeys,
        exec .expand s = .next { s with
          rk := rk, nk := BitVec.ofNat 8 (n / 4), nr := BitVec.ofNat 8 (n / 4 + 6),
          rkcnt := BitVec.ofNat 8 (n / 4 + 6 + 1), err := 0#8 } ∧
        (∀ k : Fin 15, k.val ≤ n / 4 + 6 →
          rk[k] = roundKey (scheduleWords (n / 4) (n / 4 + 6) (s.key.toList.take n)) k.val) ∧
        ∀ k : Fin 15, n / 4 + 6 < k.val → rk[k] = zeroBlock) ∧
    (¬ (n = 16 ∨ n = 24 ∨ n = 32) →
      exec .expand s = .next { s with rk := zeroRoundKeys, nk := 0#8, nr := 0#8, rkcnt := 0#8, err := 1#8 })

/-! The block cipher. -/

/-- R170: EncryptBlock as its sequence of rounds. -/
def Obligations.EncryptBlockRounds : Prop :=
  ∀ (rk : RoundKeys) (nr : Fin 15) (b : Block), ∃ f : Nat → Block,
    f 0 = addRoundKey b rk[0] ∧
    (∀ (r : Nat) (h : r < 15), 1 ≤ r → r < nr.val →
      f r = addRoundKey (mixColumns (shiftRows (subBytes (f (r - 1))))) rk[r]) ∧
    encryptBlock rk nr b = addRoundKey (shiftRows (subBytes (f (nr.val - 1)))) rk[nr]

/-- R171: DecryptBlock as its sequence of rounds, the round keys taken last first. -/
def Obligations.DecryptBlockRounds : Prop :=
  ∀ (rk : RoundKeys) (nr : Fin 15) (b : Block), ∃ f : Nat → Block,
    f 0 = addRoundKey b rk[nr] ∧
    (∀ r : Nat, 1 ≤ r → r < nr.val →
      f r = invMixColumns (addRoundKey (invSubBytes (invShiftRows (f (r - 1)))) (rk[nr.val - r]'(by omega)))) ∧
    decryptBlock rk nr b = addRoundKey (invSubBytes (invShiftRows (f (nr.val - 1)))) rk[0]

/-- R175: DecryptBlock undoes EncryptBlock and the other way round, for every schedule and every block. -/
def Obligations.BlockCipherRoundTrip : Prop :=
  ∀ (rk : RoundKeys) (nr : Fin 15) (b : Block),
    decryptBlock rk nr (encryptBlock rk nr b) = b ∧ encryptBlock rk nr (decryptBlock rk nr b) = b

/-- R175: the known answer, AES-128 of the zero block under the zero key. -/
def Obligations.KnownAnswer : Prop :=
  encryptBlock (expandKey 4 10 (List.replicate 16 0x00#8)) 10 zeroBlock =
    #v[0x66, 0xe9, 0x4b, 0xd4, 0xef, 0x8a, 0x2c, 0x3b, 0x88, 0x4c, 0xfa, 0x59, 0xca, 0x34, 0x2b, 0x2e]

/-- R173, R174: `ENCBLK` and `DECBLK`: their errors in order, and their result on `DIN[0..15]`. -/
def Obligations.RawBlockCommands : Prop :=
  ∀ (s : State) (i : Instr) (c : Block),
    (i = .encblk ∧ c = s.encrypts (readBlock s.din 0)) ∨ (i = .decblk ∧ c = s.decrypts (readBlock s.din 0)) →
    (s.rkcnt.toNat ≠ s.nr.toNat + 1 → exec i s = .next { s with dout := [], olen := 0#32, err := 5#8 }) ∧
    (s.rkcnt.toNat = s.nr.toNat + 1 → s.len.toNat ≠ 16 →
      exec i s = .next { s with dout := [], olen := 0#32, err := 3#8 }) ∧
    (s.Keyed → s.len.toNat = 16 →
      ∃ dout : Memory, exec i s = .next { s with st := c, dout := dout, olen := 16#32, err := 0#8 } ∧
        readBlock dout 0 = c ∧ ∀ a, 16 ≤ a → dout.read a = 0x00#8)

/-! The mode controller. -/

/-- R195: the checks of the mode commands in their order; a failing check leaves `DOUT` zero, `OLEN` 0, its code in `ERR`, and
everything else as it was. -/
def Obligations.ModeCommandChecks : Prop :=
  ∀ (s : State) (i : Instr), i.isMode = true →
    (s.rkcnt.toNat ≠ s.nr.toNat + 1 → exec i s = .next { s with dout := [], olen := 0#32, err := 5#8 }) ∧
    (s.rkcnt.toNat = s.nr.toNat + 1 → i.needsIv = true → s.ivlen.toNat ≠ 16 →
      exec i s = .next { s with dout := [], olen := 0#32, err := 2#8 }) ∧
    (s.rkcnt.toNat = s.nr.toNat + 1 → (i.needsIv = true → s.ivlen.toNat = 16) → Config.maxLen < s.len.toNat →
      exec i s = .next { s with dout := [], olen := 0#32, err := 6#8 }) ∧
    (s.rkcnt.toNat = s.nr.toNat + 1 → (i.needsIv = true → s.ivlen.toNat = 16) → s.len.toNat ≤ Config.maxLen →
      i.wholeBlocks = true → s.len.toNat % 16 ≠ 0 →
      exec i s = .next { s with dout := [], olen := 0#32, err := 3#8 })

/-- R191, R192: padding is removed exactly: `Unpad` accepts the sequences that `Pad` can end and no others. -/
def Obligations.PaddingRoundTrip : Prop :=
  (∀ p : Bytes, unpad (pad p) = some p ∧ (pad p).length = p.length + (16 - p.length % 16)) ∧
  ∀ d p : Bytes, d.length % 16 = 0 →
    (unpad d = some p ↔ ∃ n : Nat, 1 ≤ n ∧ n ≤ 16 ∧ d = p ++ List.replicate n (BitVec.ofNat 8 n))

/-- R193: the counter increment on the big-endian value, with wrap-around, and as a ripple of bytes. -/
def Obligations.CounterIncrement : Prop :=
  ∀ b : Block, blockValue (ctrInc b) = (blockValue b + 1) % 2 ^ 128 ∧
    ∀ i : Fin 16, (ctrInc b)[i] = if ∀ j : Fin 16, i < j → b[j] = 0xFF#8 then b[i] + 1#8 else b[i]

/-- R196: `ENCECB` on a ready core. -/
def Obligations.EncryptEcb : Prop :=
  ∀ (s : State) (n : Nat), s.Keyed → s.len.toNat ≤ Config.maxLen → n = s.len.toNat + 16 - s.len.toNat % 16 →
    ∃ dout : Memory,
      exec .encecb s = .next { s with
        st := s.encrypts (paddedBlock s (s.len.toNat / 16)), dout := dout, olen := BitVec.ofNat 32 n, err := 0#8 } ∧
      (∀ j, 16 * j < n → readBlock dout j = s.encrypts (paddedBlock s j)) ∧
      ∀ a, n ≤ a → dout.read a = 0x00#8

/-- R197: `DECECB` on a ready core: the padding is checked after every block is decrypted, and only then does plaintext
reach `DOUT`. -/
def Obligations.DecryptEcb : Prop :=
  ∀ (s : State) (d : Nat → Byte) (st : Block), s.Keyed → s.len.toNat ≤ Config.maxLen → s.len.toNat % 16 = 0 →
    d = byteAt (fun j => s.decrypts (readBlock s.din j)) →
    st = (if s.len.toNat = 0 then s.st else s.decrypts (readBlock s.din (s.len.toNat / 16 - 1))) →
    (¬ PaddingValid d s.len.toNat →
      exec .dececb s = .next { s with st := st, dout := [], olen := 0#32, err := 4#8 }) ∧
    (PaddingValid d s.len.toNat →
      ∃ (n : Nat) (dout : Memory), n + (d (s.len.toNat - 1)).toNat = s.len.toNat ∧
        exec .dececb s = .next { s with st := st, dout := dout, olen := BitVec.ofNat 32 n, err := 0#8 } ∧
        (∀ a, a < n → dout.read a = d a) ∧ ∀ a, n ≤ a → dout.read a = 0x00#8)

/-- R198: `ENCCBC` on a ready core. -/
def Obligations.EncryptCbc : Prop :=
  ∀ (s : State) (n : Nat), s.Keyed → s.ivlen.toNat = 16 → s.len.toNat ≤ Config.maxLen →
    n = s.len.toNat + 16 - s.len.toNat % 16 →
    ∃ dout : Memory,
      exec .enccbc s = .next { s with
        st := readBlock dout (s.len.toNat / 16), cv := readBlock dout (s.len.toNat / 16),
        dout := dout, olen := BitVec.ofNat 32 n, err := 0#8 } ∧
      readBlock dout 0 = s.encrypts (xorBlock (paddedBlock s 0) s.iv) ∧
      (∀ j, 16 * (j + 1) < n →
        readBlock dout (j + 1) = s.encrypts (xorBlock (paddedBlock s (j + 1)) (readBlock dout j))) ∧
      ∀ a, n ≤ a → dout.read a = 0x00#8

/-- R199: `DECCBC` on a ready core. -/
def Obligations.DecryptCbc : Prop :=
  ∀ (s : State) (prev : Nat → Block) (d : Nat → Byte) (st : Block), s.Keyed → s.ivlen.toNat = 16 →
    s.len.toNat ≤ Config.maxLen → s.len.toNat % 16 = 0 →
    (∀ j, prev j = if j = 0 then s.iv else readBlock s.din (j - 1)) →
    d = byteAt (fun j => xorBlock (s.decrypts (readBlock s.din j)) (prev j)) →
    st = (if s.len.toNat = 0 then s.st else s.decrypts (readBlock s.din (s.len.toNat / 16 - 1))) →
    (¬ PaddingValid d s.len.toNat →
      exec .deccbc s = .next { s with
        st := st, cv := prev (s.len.toNat / 16), dout := [], olen := 0#32, err := 4#8 }) ∧
    (PaddingValid d s.len.toNat →
      ∃ (n : Nat) (dout : Memory), n + (d (s.len.toNat - 1)).toNat = s.len.toNat ∧
        exec .deccbc s = .next { s with
          st := st, cv := prev (s.len.toNat / 16), dout := dout, olen := BitVec.ofNat 32 n, err := 0#8 } ∧
        (∀ a, a < n → dout.read a = d a) ∧ ∀ a, n ≤ a → dout.read a = 0x00#8)

/-- R200, R201: `ENCCFB` and `DECCFB` on a ready core: the keystream is the cipher of the ciphertext block before, which is
output when encrypting and input when decrypting. -/
def Obligations.CfbCommands : Prop :=
  ∀ (s : State) (i : Instr), s.Keyed → s.ivlen.toNat = 16 → s.len.toNat ≤ Config.maxLen → i = .enccfb ∨ i = .deccfb →
    ∃ (dout : Memory) (k prev : Nat → Block),
      (∀ j, prev j = if j = 0 then s.iv else readBlock (if i = .enccfb then dout else s.din) (j - 1)) ∧
      (∀ j, k j = s.encrypts (prev j)) ∧
      exec i s = .next { s with
        st := if s.len.toNat = 0 then s.st else k (nSeg s.len.toNat - 1), cv := prev (s.len.toNat / 16),
        dout := dout, olen := s.len, err := 0#8 } ∧
      (∀ a, a < s.len.toNat → dout.read a = s.din.read a ^^^ byteAt k a) ∧
      ∀ a, s.len.toNat ≤ a → dout.read a = 0x00#8

/-- R202, R203: `ENCOFB` and `DECOFB` on a ready core: keystream block `j` is the cipher applied `j + 1` times to the IV. -/
def Obligations.OfbCommands : Prop :=
  ∀ (s : State) (i : Instr) (k : Nat → Block), s.Keyed → s.ivlen.toNat = 16 → s.len.toNat ≤ Config.maxLen →
    i = .encofb ∨ i = .decofb →
    k 0 = s.encrypts s.iv → (∀ j, k (j + 1) = s.encrypts (k j)) →
    ∃ dout : Memory,
      exec i s = .next { s with
        st := if s.len.toNat = 0 then s.st else k (nSeg s.len.toNat - 1),
        cv := if s.len.toNat = 0 then s.iv else k (nSeg s.len.toNat - 1),
        dout := dout, olen := s.len, err := 0#8 } ∧
      (∀ a, a < s.len.toNat → dout.read a = s.din.read a ^^^ byteAt k a) ∧
      ∀ a, s.len.toNat ≤ a → dout.read a = 0x00#8

/-- R204, R205: `ENCCTR` and `DECCTR` on a ready core: keystream block `j` is the cipher of `(IV + j) mod 2^128`. -/
def Obligations.CtrCommands : Prop :=
  ∀ (s : State) (i : Instr) (k : Nat → Block), s.Keyed → s.ivlen.toNat = 16 → s.len.toNat ≤ Config.maxLen →
    i = .encctr ∨ i = .decctr →
    (∀ j, k j = s.encrypts (blockOfValue ((blockValue s.iv + j) % 2 ^ 128))) →
    ∃ dout : Memory,
      exec i s = .next { s with
        st := if s.len.toNat = 0 then s.st else k (nSeg s.len.toNat - 1),
        cv := blockOfValue ((blockValue s.iv + nSeg s.len.toNat) % 2 ^ 128),
        dout := dout, olen := s.len, err := 0#8 } ∧
      (∀ a, a < s.len.toNat → dout.read a = s.din.read a ^^^ byteAt k a) ∧
      ∀ a, s.len.toNat ≤ a → dout.read a = 0x00#8

/-- R207, the padded modes: encrypt, copy the output to the input, decrypt under the same schedule and IV: the message comes
back. -/
def Obligations.PaddedModesRoundTrip : Prop :=
  ∀ (s t u : State) (enc dec : Instr),
    (enc = .encecb ∧ dec = .dececb) ∨ (enc = .enccbc ∧ dec = .deccbc) →
    s.Keyed → (enc.needsIv = true → s.ivlen.toNat = 16) → s.len.toNat + 16 ≤ Config.maxLen → exec enc s = .next t →
    u.rk = t.rk → u.nr = t.nr → u.rkcnt = t.rkcnt → u.iv = t.iv → u.ivlen = t.ivlen → u.len = t.olen →
    (∀ a, a < t.olen.toNat → u.din.read a = t.dout.read a) →
    ∃ v, exec dec u = .next v ∧ v.err = 0#8 ∧ v.olen = s.len ∧ ∀ a, a < s.len.toNat → v.dout.read a = s.din.read a

/-- R207, the stream modes. -/
def Obligations.StreamModesRoundTrip : Prop :=
  ∀ (s t u : State) (enc dec : Instr),
    (enc = .enccfb ∧ dec = .deccfb) ∨ (enc = .encofb ∧ dec = .decofb) ∨ (enc = .encctr ∧ dec = .decctr) →
    s.Keyed → s.ivlen.toNat = 16 → s.len.toNat ≤ Config.maxLen → exec enc s = .next t →
    u.rk = t.rk → u.nr = t.nr → u.rkcnt = t.rkcnt → u.iv = t.iv → u.ivlen = t.ivlen → u.len = t.olen →
    (∀ a, a < t.olen.toNat → u.din.read a = t.dout.read a) →
    ∃ v, exec dec u = .next v ∧ v.err = 0#8 ∧ v.olen = s.len ∧ ∀ a, a < s.len.toNat → v.dout.read a = s.din.read a

/-- R208: CTR and OFB encryption applied twice restores the input. -/
def Obligations.CtrAndOfbAreInvolutions : Prop :=
  ∀ (s t u : State) (i : Instr), i = .encctr ∨ i = .encofb →
    s.Keyed → s.ivlen.toNat = 16 → s.len.toNat ≤ Config.maxLen → exec i s = .next t →
    u.rk = t.rk → u.nr = t.nr → u.rkcnt = t.rkcnt → u.iv = t.iv → u.ivlen = t.ivlen → u.len = t.olen →
    (∀ a, a < t.olen.toNat → u.din.read a = t.dout.read a) →
    ∃ v, exec i u = .next v ∧ v.err = 0#8 ∧ v.olen = s.len ∧ ∀ a, a < s.len.toNat → v.dout.read a = s.din.read a

/-! The control command. -/

/-- R230: `CLEAR` always succeeds and leaves every storage element zero; the host then reads 0x00 everywhere but at
`MAXLEN0..3`. That the host's pending events and the bytes it has read stay is the model's choice (log entry 6). -/
def Obligations.ClearErasesEverything : Prop :=
  ∀ s : State, ∃ t, exec .clear s = .next t ∧ t = { State.reset with host := s.host, reads := s.reads } ∧
    ∀ (sel : BitVec 2) (addr : BitVec 32), ¬ (sel = 0#2 ∧ 0x40 ≤ addr.toNat ∧ addr.toNat ≤ 0x43) →
      portRead sel addr t = 0x00#8

/-! Frames. -/

/-- R211, R95: a data command leaves its inputs and the schedule as they were, every byte of `DIN` among them, and so the host's
side of the port; the ECB and raw commands also leave `CV`. -/
def Obligations.DataCommandFrame : Prop :=
  ∀ (s t : State) (i : Instr), i.isData = true → exec i s = .next t →
    t.key = s.key ∧ t.keylen = s.keylen ∧ t.iv = s.iv ∧ t.ivlen = s.ivlen ∧ t.len = s.len ∧
    t.nk = s.nk ∧ t.nr = s.nr ∧ t.rkcnt = s.rkcnt ∧ t.rk = s.rk ∧
    t.din = s.din ∧ (∀ a, t.din.read a = s.din.read a) ∧ t.host = s.host ∧ t.reads = s.reads ∧
    (i.needsIv = false → t.cv = s.cv)

/-- R157, R95: `EXPAND` leaves everything but the schedule, its descriptors and `ERR` as it was, every byte of both buffers
among it. -/
def Obligations.ExpandFrame : Prop :=
  ∀ s t : State, exec .expand s = .next t →
    t.key = s.key ∧ t.keylen = s.keylen ∧ t.iv = s.iv ∧ t.ivlen = s.ivlen ∧ t.len = s.len ∧ t.olen = s.olen ∧
    t.st = s.st ∧ t.cv = s.cv ∧ t.din = s.din ∧ t.dout = s.dout ∧
    (∀ a, t.din.read a = s.din.read a ∧ t.dout.read a = s.dout.read a) ∧ t.host = s.host ∧ t.reads = s.reads

/-- R35, R249: after a data command that failed `DOUT` is all zero and `OLEN` is 0; unless it was the padding that failed, the
hidden registers are as they were. -/
def Obligations.FailedDataCommandGivesNothingOut : Prop :=
  ∀ (s t : State) (i : Instr), i.isData = true → exec i s = .next t → t.err ≠ 0#8 →
    t.olen = 0#32 ∧ (∀ a, t.dout.read a = 0x00#8) ∧ (t.err ≠ 4#8 → t.st = s.st ∧ t.cv = s.cv)

/-- R240: which commands raise which codes. -/
def Obligations.ErrorCodesByCommand : Prop :=
  (∀ (s t : State) (i : Instr), exec i s = .next t →
    (t.err = 0#8 ∨ t.err = 1#8 ∨ t.err = 2#8 ∨ t.err = 3#8 ∨ t.err = 4#8 ∨ t.err = 5#8 ∨ t.err = 6#8) ∧
    (t.err = 1#8 → i = .expand) ∧
    (t.err = 2#8 → i.needsIv = true) ∧
    (t.err = 3#8 → i.isRaw = true ∨ i.wholeBlocks = true) ∧
    (t.err = 4#8 → i.wholeBlocks = true) ∧
    (t.err = 5#8 → i.isData = true) ∧
    (t.err = 6#8 → i.isMode = true)) ∧
  ∀ (s t : State) (v : Byte), runCommand v s = .next t → (t.err = 7#8 ↔ ∀ i, encode i ≠ v)

/-! Invariants and whole-machine rules. -/

/-- R39: the invariant holds after reset. -/
def Obligations.ResetSatisfiesInvariant : Prop :=
  State.reset.Inv

/-- R39: every step keeps the invariant, from every state that meets it. -/
def Obligations.StepKeepsInvariant : Prop :=
  ∀ s t : State, s.Inv → step s = .next t → t.Inv

/-- R280: in a state that meets the invariant every transaction is enabled, and no number of them leads to a stop. -/
def Obligations.LegalStateNeverStops : Prop :=
  ∀ s : State, s.Inv → (∃ t, step s = .next t) ∧ ∀ n, Safe n s

/-- The model's choice (log entry 7): the only stop of a command is a data command whose checks pass and whose `NR` names a round
key above the file. -/
def Obligations.OnlyAbsentRoundKeyStops : Prop :=
  ∀ (s : State) (i : Instr),
    ((¬ ∃ t, exec i s = .next t) ↔
      i.isData = true ∧ s.rkcnt.toNat = s.nr.toNat + 1 ∧ 15 ≤ s.nr.toNat ∧ s.Ready i) ∧
    ((¬ ∃ t, exec i s = .next t) → exec i s = .fault .roundKeyAbsent)

/-- R274: the life cycle empty and keyed. -/
def Obligations.ScheduleLifeCycle : Prop :=
  ∀ (s t : State) (e : HostEvent) (rest : List HostEvent), s.Inv → s.host = e :: rest → step s = .next t →
    (t.rkcnt = 0#8 ∨ t.rkcnt = 11#8 ∨ t.rkcnt = 13#8 ∨ t.rkcnt = 15#8) ∧
    (e = .write 0#2 0#32 0x10#8 → (t.err = 0#8 → t.rkcnt ≠ 0#8) ∧ (t.err ≠ 0#8 → t.rkcnt = 0#8)) ∧
    (e = .write 0#2 0#32 0xF0#8 ∨ e = .reset → t.rkcnt = 0#8) ∧
    (e ≠ .write 0#2 0#32 0x10#8 → e ≠ .write 0#2 0#32 0xF0#8 → e ≠ .reset →
      t.rk = s.rk ∧ t.nk = s.nk ∧ t.nr = s.nr ∧ t.rkcnt = s.rkcnt)

/-- R31: nothing but a write to `CMD` and reset writes `ERR`. -/
def Obligations.OnlyCommandsWriteErr : Prop :=
  ∀ s t : State, step s = .next t → t.err ≠ s.err →
    (∃ (v : Byte) (rest : List HostEvent), s.host = .write 0#2 0#32 v :: rest) ∨
    ∃ rest : List HostEvent, s.host = .reset :: rest

/-- R31: no command reads `ERR`. -/
def Obligations.NoCommandReadsErr : Prop :=
  ∀ (s : State) (i : Instr) (e : Byte), exec i { s with err := e } = exec i s

/-- R22: no command but `EXPAND` reads `KEY` or `KEYLEN`: a data command does the same whatever they hold. -/
def Obligations.DataCommandsDoNotReadKey : Prop :=
  ∀ (s : State) (i : Instr) (k : Vector Byte 32) (n : Byte), i.isData = true →
    exec i { s with key := k, keylen := n } = mapNext (fun t => { t with key := k, keylen := n }) (exec i s)

/-- R34: bytes of `DIN` at and above `LEN` are never read by a command. -/
def Obligations.BytesAboveLenAreNotRead : Prop :=
  ∀ (s : State) (i : Instr) (m : Memory), i.isData = true →
    (∀ a, a < s.len.toNat → m.read a = s.din.read a) →
    exec i { s with din := m } = mapNext (fun t => { t with din := m }) (exec i s)

/-- R43: the hidden registers cannot be observed: two states that differ only in them read the same everywhere and step to
states that differ only in them. -/
def Obligations.HiddenRegistersUnobservable : Prop :=
  ∀ (s : State) (a b : Block),
    (∀ (sel : BitVec 2) (addr : BitVec 32), portRead sel addr { s with st := a, cv := b } = portRead sel addr s) ∧
    ∃ a' b' : Block, step { s with st := a, cv := b } = mapNext (fun t => { t with st := a', cv := b' }) (step s)

/-! Host scripts. -/

/-- R99, R101: `SETKEY` and `SETIV` store the bytes that fit and the length capped at 255, and change nothing else. -/
def Obligations.SetKeyAndSetIv : Prop :=
  ∀ (s : State) (x : Bytes),
    (∃ key : Vector Byte 32,
      runScript (setKey x) s = .next { s with key := key, keylen := BitVec.ofNat 8 (min x.length 255) } ∧
      ∀ i : Fin 32, key[i] = x.getD i.val s.key[i]) ∧
    ∃ iv : Block,
      runScript (setIv x) s = .next { s with iv := iv, ivlen := BitVec.ofNat 8 (min x.length 255) } ∧
      ∀ i : Fin 16, iv[i] = x.getD i.val s.iv[i]

/-- R99, R101: `SETDATA` stores at most the first `MAXLEN` bytes and the true length, and changes nothing else. -/
def Obligations.SetDataStoresMessage : Prop :=
  ∀ (s : State) (x : Bytes), s.din.wf → x.length < 2 ^ 32 →
    ∃ din : Memory, runScript (setData x) s = .next { s with din := din, len := BitVec.ofNat 32 x.length } ∧
      ∀ a, din.read a = if a < Config.maxLen then x.getD a (s.din.read a) else s.din.read a

/-- R100: the operations that take no key. With a schedule held `EncryptBlock` and `DecryptBlock` give the caller the cipher and
the inverse cipher of a block of 16 bytes and keep the schedule; with none they give InvalidKeySchedule. `SecureErase` leaves the
core as reset leaves it; that the host's side of the port stays is the model's choice (log entry 6). -/
def Obligations.OperationsWithoutAKey : Prop :=
  (∀ (s : State) (x : Bytes), s.din.wf → x.length = 16 →
    (s.Keyed →
      (∃ t, callEncryptBlock x s = .next (t, .output (s.encrypts (toBlock x)).toList) ∧
        t.rk = s.rk ∧ t.nk = s.nk ∧ t.nr = s.nr ∧ t.rkcnt = s.rkcnt) ∧
      ∃ t, callDecryptBlock x s = .next (t, .output (s.decrypts (toBlock x)).toList) ∧
        t.rk = s.rk ∧ t.nk = s.nk ∧ t.nr = s.nr ∧ t.rkcnt = s.rkcnt) ∧
    (s.rkcnt.toNat ≠ s.nr.toNat + 1 →
      (∃ t, callEncryptBlock x s = .next (t, .error 5#8)) ∧ ∃ t, callDecryptBlock x s = .next (t, .error 5#8))) ∧
  ∀ s : State, secureErase s = .next { State.reset with host := s.host, reads := s.reads }

/-- R100, R101: an operation with a key of a wrong length gives InvalidKeySize before anything else is checked; with a key of a
legal length it is the operation with the schedule held, run where `SETKEY; EXPAND; GETERR` leaves the core. -/
def Obligations.OperationDerivesItsSchedule : Prop :=
  ∀ (s : State) (i : Instr) (key text : Bytes) (iv : Option Bytes),
    (¬ (key.length = 16 ∨ key.length = 24 ∨ key.length = 32) →
      ∃ t, callData i key iv text s = .next (t, .error 1#8) ∧ t.rkcnt = 0#8) ∧
    (key.length = 16 ∨ key.length = 24 ∨ key.length = 32 →
      ∃ t, runScript (setKey key ++ [command .expand] ++ getErr) s = .next t ∧
        callData i key iv text s = callHeld i iv text t ∧ t.Keyed ∧
        t.rk = expandKey (key.length / 4) (key.length / 4 + 6) key)
end

