-- ==== Sys2Proof/Laws/Config.lean ====
section
/-! SUPPORT. The two bounds on `MAXLEN` that rule R6 gives. -/

namespace Sys2Proof

theorem Config.sixteen_le_maxLen : 16 ≤ Config.maxLen :=
  Nat.le_add_right ..

theorem Config.maxLen_add_sixteen_lt : Config.maxLen + 16 < 2 ^ 32 := by
  have := Config.maxLenAbove16.isLt
  unfold Config.maxLen
  omega

/-- A length or address of a buffer fits in 32 bits. -/
theorem Config.toNat_ofNat {n : Nat} (h : n ≤ Config.maxLen + 16) : (BitVec.ofNat 32 n).toNat = n := by
  have := Config.maxLen_add_sixteen_lt
  rw [BitVec.toNat_ofNat, Nat.mod_eq_of_lt (by omega)]

end Sys2Proof
end

