-- ==== Sys2Proof/Laws/Counter.lean ====
section
/-! SUPPORT. The big-endian value of a block and the block of a value are inverse (44_modes.md R193). -/

namespace Sys2Proof.Machine

/-- A byte sequence read as a big-endian number. -/
def listValue (l : Bytes) : Nat := l.foldl (fun v b => v * 256 + b.toNat) 0

theorem listValue_snoc (l : Bytes) (b : Byte) : listValue (l ++ [b]) = listValue l * 256 + b.toNat := by
  simp [listValue]

theorem listValue_lt (l : Bytes) : listValue l < 256 ^ l.length := by
  induction l using List.reverseRecOn with
  | nil => simp [listValue]
  | append_singleton l b ih =>
    rw [listValue_snoc, List.length_append, List.length_singleton, pow_succ]
    have := b.isLt
    omega

theorem listValue_ofFn (n v : Nat) : listValue (List.ofFn fun i : Fin n => BitVec.ofNat 8 (v / 256 ^ (n - 1 - i.val))) = v % 256 ^ n := by
  induction n generalizing v with
  | zero => simp [listValue, Nat.mod_one]
  | succ n ih =>
    rw [List.ofFn_succ_last, listValue_snoc]
    have : (fun i : Fin n => BitVec.ofNat 8 (v / 256 ^ (n + 1 - 1 - i.castSucc.val))) = fun i : Fin n => BitVec.ofNat 8 (v / 256 / 256 ^ (n - 1 - i.val)) := by
      funext i
      rw [Nat.div_div_eq_div_mul, ← pow_succ']
      congr 3; simp; omega
    rw [this, ih]
    simp only [Fin.val_last, Nat.add_sub_cancel, Nat.sub_self, pow_zero, Nat.div_one, BitVec.toNat_ofNat]
    rw [show v % 2 ^ 8 = v % 256 by norm_num, pow_succ' 256 n, Nat.mod_mul (x := v) (a := 256) (b := 256 ^ n)]
    ring

theorem listValue_inj {l m : Bytes} (h : l.length = m.length) (hv : listValue l = listValue m) : l = m := by
  induction l using List.reverseRecOn generalizing m with
  | nil => simp at h; exact (List.length_eq_zero_iff.1 h.symm).symm
  | append_singleton l b ih =>
    cases m using List.reverseRecOn with
    | nil => simp at h
    | append_singleton m c =>
      rw [listValue_snoc, listValue_snoc] at hv
      have := b.isLt; have := c.isLt
      have h1 : b = c := BitVec.eq_of_toNat_eq (by omega)
      rw [h1, ih (by simpa using h) (by omega)]

theorem blockValue_eq (b : Block) : blockValue b = listValue b.toList := rfl

theorem blockValue_blockOfValue (v : Nat) : blockValue (blockOfValue v) = v % 2 ^ 128 := by
  rw [blockValue_eq, blockOfValue, Vector.toList_ofFn, show (2 ^ 128 : Nat) = 256 ^ 16 by norm_num]
  exact listValue_ofFn 16 v

theorem blockValue_lt (b : Block) : blockValue b < 2 ^ 128 := by
  have := listValue_lt b.toList
  rwa [Vector.length_toList, show (256 ^ 16 : Nat) = 2 ^ 128 by norm_num] at this

theorem blockOfValue_blockValue (b : Block) : blockOfValue (blockValue b) = b := by
  have h : blockValue (blockOfValue (blockValue b)) = blockValue b := by
    rw [blockValue_blockOfValue, Nat.mod_eq_of_lt (blockValue_lt b)]
  have := listValue_inj (l := (blockOfValue (blockValue b)).toList) (m := b.toList) (by simp) h
  exact Vector.toList_inj.1 this

end Sys2Proof.Machine
end

