-- ==== Sys2Proof/Laws/Field.lean ====
section
/-! SUPPORT. Doubling and the multiplication loop are linear over exclusive-or (40_gf_and_tables.md R111, R112). -/

namespace Sys2Proof.Machine

/-- Doubling is linear. -/
theorem xtime_xor (a b : Byte) : xtime (a ^^^ b) = xtime a ^^^ xtime b := by
  have : ∀ a b : Bool, (if (a ^^ b) = true then 0x1B#8 else 0x00#8) = (if a = true then 0x1B#8 else 0x00#8) ^^^ (if b = true then 0x1B#8 else 0x00#8) := by decide
  simp only [xtime, BitVec.shiftLeft_xor_distrib, BitVec.getLsbD_xor, this]
  ac_rfl

/-- What is in the accumulator goes through the loop. -/
theorem gfMulLoop_acc (n i : Nat) (p q a b : Byte) : gfMulLoop n i (p ^^^ q) a b = p ^^^ gfMulLoop n i q a b := by
  induction n generalizing i p q a with
  | zero => rfl
  | succ n ih =>
    simp only [gfMulLoop]
    split
    · rw [BitVec.xor_assoc, ih]
    · rw [ih]

/-- The loop is linear in its first factor. -/
theorem gfMulLoop_xor_left (n i : Nat) (p q a b c : Byte) : gfMulLoop n i (p ^^^ q) (a ^^^ b) c = gfMulLoop n i p a c ^^^ gfMulLoop n i q b c := by
  induction n generalizing i p q a b with
  | zero => rfl
  | succ n ih =>
    simp only [gfMulLoop, xtime_xor]
    split
    · rw [← ih]; congr 1; ac_rfl
    · rw [← ih]

/-- The loop is linear in its second factor. -/
theorem gfMulLoop_xor_right (n i : Nat) (p q a b c : Byte) : gfMulLoop n i (p ^^^ q) a (b ^^^ c) = gfMulLoop n i p a b ^^^ gfMulLoop n i q a c := by
  induction n generalizing i p q a with
  | zero => rfl
  | succ n ih =>
    simp only [gfMulLoop]
    rw [← ih]
    congr 1
    simp only [BitVec.getLsbD_xor]
    cases b.getLsbD i <;> cases c.getLsbD i <;> simp
    · ac_rfl
    · ac_rfl
    · calc p ^^^ q = p ^^^ q ^^^ (a ^^^ a) := by simp
        _ = _ := by ac_rfl

end Sys2Proof.Machine
end

