-- ==== Sys2Proof/Laws/KeySchedule.lean ====
section
/-! SUPPORT. What the extension of the key schedule by words does (42_key_schedule.md R154). -/

namespace Sys2Proof.Machine

theorem length_growWords (nk n : Nat) (w : List Word) : (growWords nk n w).length = w.length + n := by
  induction n generalizing w with
  | zero => rfl
  | succ n ih => simp only [growWords, ih, List.length_append, List.length_singleton]; omega

/-- A word once made is not changed. -/
theorem growWords_old (nk n : Nat) (w : List Word) (j : Nat) (h : j < w.length) : wordAt (growWords nk n w) j = wordAt w j := by
  induction n generalizing w with
  | zero => rfl
  | succ n ih =>
    simp only [growWords]
    rw [ih _ (by simp; omega)]
    exact List.getD_append _ _ _ _ h

/-- A word that is made comes from the two words before it. -/
theorem growWords_new (nk n : Nat) (w : List Word) (j : Nat) (h0 : 0 < nk) (hw : nk ≤ w.length) (h : w.length ≤ j) (h2 : j < w.length + n) :
    wordAt (growWords nk n w) j = xorWord (wordAt (growWords nk n w) (j - nk)) (chainWord nk j (wordAt (growWords nk n w) (j - 1))) := by
  induction n generalizing w with
  | zero => omega
  | succ n ih =>
    simp only [growWords]
    by_cases hj : j = w.length
    · subst hj
      rw [growWords_old _ _ _ _ (by simp), growWords_old _ _ _ _ (by simp), growWords_old _ _ _ _ (by simp)]
      unfold wordAt
      rw [List.getD_append_right _ _ _ _ (by omega), List.getD_append _ _ _ _ (by omega), List.getD_append _ _ _ _ (by omega)]
      simp
    · exact ih _ (by simp; omega) (by simp; omega) (by simp; omega)

end Sys2Proof.Machine
end

