-- ==== Sys2Proof/Laws/Memory.lean ====
section
/-! SUPPORT. What the buffer operations do: a byte reads as what was last written to it, every other byte is left alone, and the
canonical form is kept, so that equal buffers are equal lists. -/

namespace Sys2Proof.Machine

@[simp] theorem Memory.read_nil (a : Nat) : Memory.read [] a = Config.unlistedByte := rfl

theorem Memory.wf_nil : Memory.wf [] := by simp [Memory.wf]

theorem Memory.below_nil (n : Nat) : Memory.below [] n := by simp [Memory.below]

theorem Memory.wf_tail {c : Host.Cell} {m : Memory} (h : Memory.wf (c :: m)) : Memory.wf m :=
  ⟨(List.pairwise_cons.1 h.1).2, fun d hd => h.2 d (List.mem_cons_of_mem _ hd)⟩

/-- An address below every listed one reads as unlisted. -/
theorem Memory.read_of_lt {m : Memory} {a : Nat} (h : ∀ c ∈ m, a < c.1) : m.read a = Config.unlistedByte := by
  induction m with
  | nil => rfl
  | cons c m ih =>
    obtain ⟨k, v⟩ := c
    have hk : a < k := h (k, v) (List.mem_cons_self ..)
    have hne : k ≠ a := by omega
    simp [Memory.read, hne, ih fun d hd => h d (List.mem_cons_of_mem _ hd)]

/-- The tail of a canonical list lists only addresses above the head's. -/
theorem Memory.lt_of_wf_cons {k : Nat} {v : Byte} {m : Memory} (h : Memory.wf ((k, v) :: m)) : ∀ c ∈ m, k < c.1 :=
  fun c hc => (List.pairwise_cons.1 h.1).1 c hc

/-- A read after a write: the value at the written address, everything else as before. -/
theorem Memory.read_write {m : Memory} (h : m.wf) (a a' : Nat) (b : Byte) :
    (m.write a b).read a' = if a' = a then b else m.read a' := by
  induction m with
  | nil =>
    by_cases hb : b = Config.unlistedByte
    · simp [Memory.write, hb]
    · simp [Memory.write, hb, Memory.read, eq_comm]
  | cons c m ih =>
    obtain ⟨k, v⟩ := c
    have hm := Memory.wf_tail h
    have hlt := Memory.lt_of_wf_cons h
    by_cases hak : a < k
    · have hun : Memory.read ((k, v) :: m) a = Config.unlistedByte := by
        apply Memory.read_of_lt
        intro d hd
        rcases List.mem_cons.1 hd with rfl | hd
        · exact hak
        · exact Nat.lt_trans hak (hlt d hd)
      by_cases hb : b = Config.unlistedByte
      · by_cases ha : a' = a
        · subst ha; simp [Memory.write, hak, hb, hun]
        · simp [Memory.write, hak, hb, ha]
      · by_cases ha : a' = a
        · subst ha; simp [Memory.write, hak, hb, Memory.read]
        · have : a ≠ a' := fun e => ha e.symm
          simp [Memory.write, hak, hb, ha, Memory.read, this]
    · by_cases hk : a = k
      · subst hk
        by_cases hb : b = Config.unlistedByte
        · by_cases ha : a' = a
          · subst ha; simp [Memory.write, hb, Memory.read_of_lt hlt]
          · have : a ≠ a' := fun e => ha e.symm
            simp [Memory.write, hb, ha, Memory.read, this]
        · by_cases ha : a' = a
          · subst ha; simp [Memory.write, hb, Memory.read]
          · have : a ≠ a' := fun e => ha e.symm
            simp [Memory.write, hb, ha, Memory.read, this]
      · by_cases hk' : k = a'
        · subst hk'
          have : ¬ k = a := fun e => hk e.symm
          simp [Memory.write, hak, hk, Memory.read, this]
        · simp [Memory.write, hak, hk, Memory.read, hk', ih hm]

/-- A write lists no new address but the written one. -/
theorem Memory.mem_write {m : Memory} {a : Nat} {b : Byte} {c : Host.Cell} (h : c ∈ m.write a b) :
    c ∈ m ∨ (c = (a, b) ∧ b ≠ Config.unlistedByte) := by
  induction m with
  | nil =>
    by_cases hb : b = Config.unlistedByte
    · simp [Memory.write, hb] at h
    · simp [Memory.write, hb] at h; exact .inr ⟨h, hb⟩
  | cons d m ih =>
    obtain ⟨k, v⟩ := d
    unfold Memory.write at h
    split at h
    · split at h
      · exact .inl h
      · rcases List.mem_cons.1 h with h | h
        · exact .inr ⟨h, ‹_›⟩
        · exact .inl h
    · split at h
      · split at h
        · exact .inl (List.mem_cons_of_mem _ h)
        · rcases List.mem_cons.1 h with h | h
          · exact .inr ⟨h, ‹_›⟩
          · exact .inl (List.mem_cons_of_mem _ h)
      · rcases List.mem_cons.1 h with h | h
        · exact .inl (h ▸ List.mem_cons_self ..)
        · exact (ih h).imp_left (List.mem_cons_of_mem _)

/-- A write keeps the canonical form. -/
theorem Memory.wf_write {m : Memory} (h : m.wf) (a : Nat) (b : Byte) : (m.write a b).wf := by
  induction m with
  | nil =>
    by_cases hb : b = Config.unlistedByte
    · simp [Memory.write, hb, Memory.wf]
    · simp [Memory.write, hb, Memory.wf]
  | cons c m ih =>
    obtain ⟨k, v⟩ := c
    have hm := Memory.wf_tail h
    have hlt := Memory.lt_of_wf_cons h
    refine ⟨?_, fun d hd => ?_⟩
    · unfold Memory.write
      split
      · rename_i hak
        split
        · exact h.1
        · refine List.pairwise_cons.2 ⟨fun d hd => ?_, h.1⟩
          rcases List.mem_cons.1 hd with rfl | hd
          · exact hak
          · exact Nat.lt_trans hak (hlt d hd)
      · split
        · rename_i hak
          split
          · exact hm.1
          · exact List.pairwise_cons.2 ⟨fun d hd => hak ▸ hlt d hd, hm.1⟩
        · refine List.pairwise_cons.2 ⟨fun d hd => ?_, (ih hm).1⟩
          rcases Memory.mem_write hd with hd | ⟨rfl, _⟩
          · exact hlt d hd
          · show k < a
            omega
    · rcases Memory.mem_write hd with hd | ⟨rfl, hb⟩
      · exact h.2 d hd
      · exact hb

/-- A write in range keeps the range. -/
theorem Memory.below_write {m : Memory} {n : Nat} (h : m.below n) {a : Nat} (ha : a < n) (b : Byte) :
    (m.write a b).below n := by
  intro c hc
  rcases Memory.mem_write hc with hc | ⟨rfl, _⟩
  · exact h c hc
  · exact ha

/-- Two canonical lists that read the same at every address are the same list. -/
theorem Memory.ext_read {m m' : Memory} (h : m.wf) (h' : m'.wf) (e : ∀ a, m.read a = m'.read a) : m = m' := by
  induction m generalizing m' with
  | nil =>
    cases m' with
    | nil => rfl
    | cons c m' =>
      obtain ⟨k, v⟩ := c
      have := e k
      simp [Memory.read] at this
      exact absurd this.symm (h'.2 (k, v) (List.mem_cons_self ..))
  | cons c m ih =>
    obtain ⟨k, v⟩ := c
    have hv := h.2 (k, v) (List.mem_cons_self ..)
    cases m' with
    | nil =>
      have := e k
      simp [Memory.read] at this
      exact absurd this hv
    | cons c' m' =>
      obtain ⟨k', v'⟩ := c'
      have hv' := h'.2 (k', v') (List.mem_cons_self ..)
      have hlt := Memory.lt_of_wf_cons h
      have hlt' := Memory.lt_of_wf_cons h'
      have hk : k = k' := by
        rcases Nat.lt_trichotomy k k' with hkk | hkk | hkk
        · have h1 := e k
          have h2 : Memory.read ((k', v') :: m') k = Config.unlistedByte :=
            Memory.read_of_lt fun d hd => by
              rcases List.mem_cons.1 hd with rfl | hd
              · exact hkk
              · exact Nat.lt_trans hkk (hlt' d hd)
          rw [h2] at h1
          simp [Memory.read] at h1
          exact absurd h1 hv
        · exact hkk
        · have h1 := e k'
          have h2 : Memory.read ((k, v) :: m) k' = Config.unlistedByte :=
            Memory.read_of_lt fun d hd => by
              rcases List.mem_cons.1 hd with rfl | hd
              · exact hkk
              · exact Nat.lt_trans hkk (hlt d hd)
          rw [h2] at h1
          simp [Memory.read] at h1
          exact absurd h1.symm hv'
      subst hk
      have hvv : v = v' := by simpa [Memory.read] using e k
      subst hvv
      have : m = m' := by
        refine ih (Memory.wf_tail h) (Memory.wf_tail h') fun a => ?_
        by_cases ha : k = a
        · subst ha
          rw [Memory.read_of_lt hlt, Memory.read_of_lt hlt']
        · simpa [Memory.read, ha] using e a
      rw [this]

@[simp] theorem Memory.writeBytes_nil (m : Memory) (addr : Nat) : m.writeBytes addr [] = m := rfl

/-- Writing a sequence keeps the canonical form. -/
theorem Memory.wf_writeBytes {m : Memory} (h : m.wf) (addr : Nat) (v : Bytes) : (m.writeBytes addr v).wf := by
  induction v generalizing m addr with
  | nil => exact h
  | cons b v ih => exact ih (Memory.wf_write h addr b) (addr + 1)

/-- Writing a sequence in range keeps the range. -/
theorem Memory.below_writeBytes {m : Memory} {n : Nat} (h : m.below n) {addr : Nat} {v : Bytes}
    (hv : addr + v.length ≤ n) : (m.writeBytes addr v).below n := by
  induction v generalizing m addr with
  | nil => exact h
  | cons b v ih =>
    have : addr + 1 + v.length ≤ n := by simp only [List.length_cons] at hv; omega
    exact ih (Memory.below_write h (by simp only [List.length_cons] at hv; omega) b) this

/-- Reading after a sequence was written: the sequence at its addresses, everything else as before. -/
theorem Memory.read_writeBytes {m : Memory} (h : m.wf) (addr : Nat) (v : Bytes) (a : Nat) :
    (m.writeBytes addr v).read a =
      if addr ≤ a ∧ a < addr + v.length then v.getD (a - addr) Config.unlistedByte else m.read a := by
  induction v generalizing m addr with
  | nil =>
    have : ¬ (addr ≤ a ∧ a < addr + 0) := by omega
    simp only [Memory.writeBytes_nil, List.length_nil, this, if_false]
  | cons b v ih =>
    rw [Memory.writeBytes, ih (Memory.wf_write h addr b), Memory.read_write h]
    simp only [List.length_cons]
    by_cases ha : a = addr
    · subst ha
      simp
    · by_cases hin : addr + 1 ≤ a ∧ a < addr + 1 + v.length
      · have h2 : addr ≤ a ∧ a < addr + (v.length + 1) := by omega
        obtain ⟨k, hk⟩ : ∃ k, a = addr + 1 + k := ⟨a - (addr + 1), by omega⟩
        subst hk
        have e1 : addr + 1 + k - (addr + 1) = k := by omega
        have e2 : addr + 1 + k - addr = k + 1 := by omega
        simp only [hin, and_self, if_true, h2, e1, e2, List.getD_cons_succ]
      · have h2 : ¬ (addr ≤ a ∧ a < addr + (v.length + 1)) := by omega
        simp only [hin, if_false, h2, ha]

/-- A sequence written to an empty buffer from address 0. -/
theorem Memory.read_writeBytes_nil (v : Bytes) (a : Nat) :
    (Memory.writeBytes [] 0 v).read a = v.getD a Config.unlistedByte := by
  rw [Memory.read_writeBytes Memory.wf_nil]
  by_cases h : a < v.length
  · simp [h]
  · rw [List.getD_eq_default _ _ (by omega)]
    simp [h]

@[simp] theorem Memory.length_readBytes (m : Memory) (addr n : Nat) : (m.readBytes addr n).length = n := by
  induction n generalizing addr with
  | zero => rfl
  | succ n ih => simp [Memory.readBytes, ih]

theorem Memory.getElem_readBytes (m : Memory) (addr n i : Nat) (h : i < (m.readBytes addr n).length) :
    (m.readBytes addr n)[i] = m.read (addr + i) := by
  induction n generalizing addr i with
  | zero => simp at h
  | succ n ih =>
    cases i with
    | zero => simp [Memory.readBytes]
    | succ i =>
      have := ih (addr + 1) i (by simpa [Memory.readBytes] using h)
      simpa [Memory.readBytes, Nat.add_assoc, Nat.add_comm 1 i] using this

/-- Reading depends only on the bytes read. -/
theorem Memory.readBytes_congr {m m' : Memory} {addr n : Nat}
    (h : ∀ a, addr ≤ a → a < addr + n → m.read a = m'.read a) : m.readBytes addr n = m'.readBytes addr n := by
  apply List.ext_getElem (by simp)
  intro i h1 h2
  rw [Memory.getElem_readBytes, Memory.getElem_readBytes]
  exact h _ (by omega) (by simp at h1; omega)

end Sys2Proof.Machine
end

