-- ==== Sys2Proof/Laws/State.lean ====
section
/-! SUPPORT. One lemma per field per update: what each named update of the state leaves in each field. -/

namespace Sys2Proof.Machine

/-! The fields after `raise`. -/

@[simp] theorem raise_key (e : ErrorKind) (s : State) : (raise e s).key = s.key := rfl
@[simp] theorem raise_keylen (e : ErrorKind) (s : State) : (raise e s).keylen = s.keylen := rfl
@[simp] theorem raise_iv (e : ErrorKind) (s : State) : (raise e s).iv = s.iv := rfl
@[simp] theorem raise_ivlen (e : ErrorKind) (s : State) : (raise e s).ivlen = s.ivlen := rfl
@[simp] theorem raise_len (e : ErrorKind) (s : State) : (raise e s).len = s.len := rfl
@[simp] theorem raise_olen (e : ErrorKind) (s : State) : (raise e s).olen = s.olen := rfl
@[simp] theorem raise_err (e : ErrorKind) (s : State) : (raise e s).err = e.code := rfl
@[simp] theorem raise_nk (e : ErrorKind) (s : State) : (raise e s).nk = s.nk := rfl
@[simp] theorem raise_nr (e : ErrorKind) (s : State) : (raise e s).nr = s.nr := rfl
@[simp] theorem raise_rkcnt (e : ErrorKind) (s : State) : (raise e s).rkcnt = s.rkcnt := rfl
@[simp] theorem raise_rk (e : ErrorKind) (s : State) : (raise e s).rk = s.rk := rfl
@[simp] theorem raise_st (e : ErrorKind) (s : State) : (raise e s).st = s.st := rfl
@[simp] theorem raise_cv (e : ErrorKind) (s : State) : (raise e s).cv = s.cv := rfl
@[simp] theorem raise_din (e : ErrorKind) (s : State) : (raise e s).din = s.din := rfl
@[simp] theorem raise_dout (e : ErrorKind) (s : State) : (raise e s).dout = s.dout := rfl
@[simp] theorem raise_host (e : ErrorKind) (s : State) : (raise e s).host = s.host := rfl
@[simp] theorem raise_reads (e : ErrorKind) (s : State) : (raise e s).reads = s.reads := rfl

/-! The fields after `finish`. -/

@[simp] theorem finish_key (s : State) : (finish s).key = s.key := rfl
@[simp] theorem finish_keylen (s : State) : (finish s).keylen = s.keylen := rfl
@[simp] theorem finish_iv (s : State) : (finish s).iv = s.iv := rfl
@[simp] theorem finish_ivlen (s : State) : (finish s).ivlen = s.ivlen := rfl
@[simp] theorem finish_len (s : State) : (finish s).len = s.len := rfl
@[simp] theorem finish_olen (s : State) : (finish s).olen = s.olen := rfl
@[simp] theorem finish_err (s : State) : (finish s).err = 0x00#8 := rfl
@[simp] theorem finish_nk (s : State) : (finish s).nk = s.nk := rfl
@[simp] theorem finish_nr (s : State) : (finish s).nr = s.nr := rfl
@[simp] theorem finish_rkcnt (s : State) : (finish s).rkcnt = s.rkcnt := rfl
@[simp] theorem finish_rk (s : State) : (finish s).rk = s.rk := rfl
@[simp] theorem finish_st (s : State) : (finish s).st = s.st := rfl
@[simp] theorem finish_cv (s : State) : (finish s).cv = s.cv := rfl
@[simp] theorem finish_din (s : State) : (finish s).din = s.din := rfl
@[simp] theorem finish_dout (s : State) : (finish s).dout = s.dout := rfl
@[simp] theorem finish_host (s : State) : (finish s).host = s.host := rfl
@[simp] theorem finish_reads (s : State) : (finish s).reads = s.reads := rfl

/-! The fields after `clearOutput`. -/

@[simp] theorem clearOutput_key (s : State) : (clearOutput s).key = s.key := rfl
@[simp] theorem clearOutput_keylen (s : State) : (clearOutput s).keylen = s.keylen := rfl
@[simp] theorem clearOutput_iv (s : State) : (clearOutput s).iv = s.iv := rfl
@[simp] theorem clearOutput_ivlen (s : State) : (clearOutput s).ivlen = s.ivlen := rfl
@[simp] theorem clearOutput_len (s : State) : (clearOutput s).len = s.len := rfl
@[simp] theorem clearOutput_olen (s : State) : (clearOutput s).olen = 0#32 := rfl
@[simp] theorem clearOutput_err (s : State) : (clearOutput s).err = s.err := rfl
@[simp] theorem clearOutput_nk (s : State) : (clearOutput s).nk = s.nk := rfl
@[simp] theorem clearOutput_nr (s : State) : (clearOutput s).nr = s.nr := rfl
@[simp] theorem clearOutput_rkcnt (s : State) : (clearOutput s).rkcnt = s.rkcnt := rfl
@[simp] theorem clearOutput_rk (s : State) : (clearOutput s).rk = s.rk := rfl
@[simp] theorem clearOutput_st (s : State) : (clearOutput s).st = s.st := rfl
@[simp] theorem clearOutput_cv (s : State) : (clearOutput s).cv = s.cv := rfl
@[simp] theorem clearOutput_din (s : State) : (clearOutput s).din = s.din := rfl
@[simp] theorem clearOutput_dout (s : State) : (clearOutput s).dout = [] := rfl
@[simp] theorem clearOutput_host (s : State) : (clearOutput s).host = s.host := rfl
@[simp] theorem clearOutput_reads (s : State) : (clearOutput s).reads = s.reads := rfl

/-! The fields after `storeOutput`. -/

@[simp] theorem storeOutput_key (out : Bytes) (s : State) : (storeOutput out s).key = s.key := rfl
@[simp] theorem storeOutput_keylen (out : Bytes) (s : State) : (storeOutput out s).keylen = s.keylen := rfl
@[simp] theorem storeOutput_iv (out : Bytes) (s : State) : (storeOutput out s).iv = s.iv := rfl
@[simp] theorem storeOutput_ivlen (out : Bytes) (s : State) : (storeOutput out s).ivlen = s.ivlen := rfl
@[simp] theorem storeOutput_len (out : Bytes) (s : State) : (storeOutput out s).len = s.len := rfl
@[simp] theorem storeOutput_olen (out : Bytes) (s : State) : (storeOutput out s).olen = BitVec.ofNat 32 out.length := rfl
@[simp] theorem storeOutput_err (out : Bytes) (s : State) : (storeOutput out s).err = s.err := rfl
@[simp] theorem storeOutput_nk (out : Bytes) (s : State) : (storeOutput out s).nk = s.nk := rfl
@[simp] theorem storeOutput_nr (out : Bytes) (s : State) : (storeOutput out s).nr = s.nr := rfl
@[simp] theorem storeOutput_rkcnt (out : Bytes) (s : State) : (storeOutput out s).rkcnt = s.rkcnt := rfl
@[simp] theorem storeOutput_rk (out : Bytes) (s : State) : (storeOutput out s).rk = s.rk := rfl
@[simp] theorem storeOutput_st (out : Bytes) (s : State) : (storeOutput out s).st = s.st := rfl
@[simp] theorem storeOutput_cv (out : Bytes) (s : State) : (storeOutput out s).cv = s.cv := rfl
@[simp] theorem storeOutput_din (out : Bytes) (s : State) : (storeOutput out s).din = s.din := rfl
@[simp] theorem storeOutput_dout (out : Bytes) (s : State) : (storeOutput out s).dout = s.dout.writeBytes 0 out := rfl
@[simp] theorem storeOutput_host (out : Bytes) (s : State) : (storeOutput out s).host = s.host := rfl
@[simp] theorem storeOutput_reads (out : Bytes) (s : State) : (storeOutput out s).reads = s.reads := rfl

/-! The fields after `setWorking`. -/

@[simp] theorem setWorking_key (st cv : Block) (s : State) : (setWorking st cv s).key = s.key := rfl
@[simp] theorem setWorking_keylen (st cv : Block) (s : State) : (setWorking st cv s).keylen = s.keylen := rfl
@[simp] theorem setWorking_iv (st cv : Block) (s : State) : (setWorking st cv s).iv = s.iv := rfl
@[simp] theorem setWorking_ivlen (st cv : Block) (s : State) : (setWorking st cv s).ivlen = s.ivlen := rfl
@[simp] theorem setWorking_len (st cv : Block) (s : State) : (setWorking st cv s).len = s.len := rfl
@[simp] theorem setWorking_olen (st cv : Block) (s : State) : (setWorking st cv s).olen = s.olen := rfl
@[simp] theorem setWorking_err (st cv : Block) (s : State) : (setWorking st cv s).err = s.err := rfl
@[simp] theorem setWorking_nk (st cv : Block) (s : State) : (setWorking st cv s).nk = s.nk := rfl
@[simp] theorem setWorking_nr (st cv : Block) (s : State) : (setWorking st cv s).nr = s.nr := rfl
@[simp] theorem setWorking_rkcnt (st cv : Block) (s : State) : (setWorking st cv s).rkcnt = s.rkcnt := rfl
@[simp] theorem setWorking_rk (st cv : Block) (s : State) : (setWorking st cv s).rk = s.rk := rfl
@[simp] theorem setWorking_st (st cv : Block) (s : State) : (setWorking st cv s).st = st := rfl
@[simp] theorem setWorking_cv (st cv : Block) (s : State) : (setWorking st cv s).cv = cv := rfl
@[simp] theorem setWorking_din (st cv : Block) (s : State) : (setWorking st cv s).din = s.din := rfl
@[simp] theorem setWorking_dout (st cv : Block) (s : State) : (setWorking st cv s).dout = s.dout := rfl
@[simp] theorem setWorking_host (st cv : Block) (s : State) : (setWorking st cv s).host = s.host := rfl
@[simp] theorem setWorking_reads (st cv : Block) (s : State) : (setWorking st cv s).reads = s.reads := rfl

/-! The fields after `setSchedule`. -/

@[simp] theorem setSchedule_key (rk : RoundKeys) (nk nr rkcnt : Byte) (s : State) : (setSchedule rk nk nr rkcnt s).key = s.key := rfl
@[simp] theorem setSchedule_keylen (rk : RoundKeys) (nk nr rkcnt : Byte) (s : State) : (setSchedule rk nk nr rkcnt s).keylen = s.keylen := rfl
@[simp] theorem setSchedule_iv (rk : RoundKeys) (nk nr rkcnt : Byte) (s : State) : (setSchedule rk nk nr rkcnt s).iv = s.iv := rfl
@[simp] theorem setSchedule_ivlen (rk : RoundKeys) (nk nr rkcnt : Byte) (s : State) : (setSchedule rk nk nr rkcnt s).ivlen = s.ivlen := rfl
@[simp] theorem setSchedule_len (rk : RoundKeys) (nk nr rkcnt : Byte) (s : State) : (setSchedule rk nk nr rkcnt s).len = s.len := rfl
@[simp] theorem setSchedule_olen (rk : RoundKeys) (nk nr rkcnt : Byte) (s : State) : (setSchedule rk nk nr rkcnt s).olen = s.olen := rfl
@[simp] theorem setSchedule_err (rk : RoundKeys) (nk nr rkcnt : Byte) (s : State) : (setSchedule rk nk nr rkcnt s).err = s.err := rfl
@[simp] theorem setSchedule_nk (rk : RoundKeys) (nk nr rkcnt : Byte) (s : State) : (setSchedule rk nk nr rkcnt s).nk = nk := rfl
@[simp] theorem setSchedule_nr (rk : RoundKeys) (nk nr rkcnt : Byte) (s : State) : (setSchedule rk nk nr rkcnt s).nr = nr := rfl
@[simp] theorem setSchedule_rkcnt (rk : RoundKeys) (nk nr rkcnt : Byte) (s : State) : (setSchedule rk nk nr rkcnt s).rkcnt = rkcnt := rfl
@[simp] theorem setSchedule_rk (rk : RoundKeys) (nk nr rkcnt : Byte) (s : State) : (setSchedule rk nk nr rkcnt s).rk = rk := rfl
@[simp] theorem setSchedule_st (rk : RoundKeys) (nk nr rkcnt : Byte) (s : State) : (setSchedule rk nk nr rkcnt s).st = s.st := rfl
@[simp] theorem setSchedule_cv (rk : RoundKeys) (nk nr rkcnt : Byte) (s : State) : (setSchedule rk nk nr rkcnt s).cv = s.cv := rfl
@[simp] theorem setSchedule_din (rk : RoundKeys) (nk nr rkcnt : Byte) (s : State) : (setSchedule rk nk nr rkcnt s).din = s.din := rfl
@[simp] theorem setSchedule_dout (rk : RoundKeys) (nk nr rkcnt : Byte) (s : State) : (setSchedule rk nk nr rkcnt s).dout = s.dout := rfl
@[simp] theorem setSchedule_host (rk : RoundKeys) (nk nr rkcnt : Byte) (s : State) : (setSchedule rk nk nr rkcnt s).host = s.host := rfl
@[simp] theorem setSchedule_reads (rk : RoundKeys) (nk nr rkcnt : Byte) (s : State) : (setSchedule rk nk nr rkcnt s).reads = s.reads := rfl

/-! The fields after `illegalCommand`. -/

@[simp] theorem illegalCommand_key (s : State) : (illegalCommand s).key = s.key := rfl
@[simp] theorem illegalCommand_keylen (s : State) : (illegalCommand s).keylen = s.keylen := rfl
@[simp] theorem illegalCommand_iv (s : State) : (illegalCommand s).iv = s.iv := rfl
@[simp] theorem illegalCommand_ivlen (s : State) : (illegalCommand s).ivlen = s.ivlen := rfl
@[simp] theorem illegalCommand_len (s : State) : (illegalCommand s).len = s.len := rfl
@[simp] theorem illegalCommand_olen (s : State) : (illegalCommand s).olen = s.olen := rfl
@[simp] theorem illegalCommand_err (s : State) : (illegalCommand s).err = 7#8 := rfl
@[simp] theorem illegalCommand_nk (s : State) : (illegalCommand s).nk = s.nk := rfl
@[simp] theorem illegalCommand_nr (s : State) : (illegalCommand s).nr = s.nr := rfl
@[simp] theorem illegalCommand_rkcnt (s : State) : (illegalCommand s).rkcnt = s.rkcnt := rfl
@[simp] theorem illegalCommand_rk (s : State) : (illegalCommand s).rk = s.rk := rfl
@[simp] theorem illegalCommand_st (s : State) : (illegalCommand s).st = s.st := rfl
@[simp] theorem illegalCommand_cv (s : State) : (illegalCommand s).cv = s.cv := rfl
@[simp] theorem illegalCommand_din (s : State) : (illegalCommand s).din = s.din := rfl
@[simp] theorem illegalCommand_dout (s : State) : (illegalCommand s).dout = s.dout := rfl
@[simp] theorem illegalCommand_host (s : State) : (illegalCommand s).host = s.host := rfl
@[simp] theorem illegalCommand_reads (s : State) : (illegalCommand s).reads = s.reads := rfl

/-! The fields after `zeroCore`. -/

@[simp] theorem zeroCore_key (s : State) : (zeroCore s).key = State.reset.key := rfl
@[simp] theorem zeroCore_keylen (s : State) : (zeroCore s).keylen = State.reset.keylen := rfl
@[simp] theorem zeroCore_iv (s : State) : (zeroCore s).iv = State.reset.iv := rfl
@[simp] theorem zeroCore_ivlen (s : State) : (zeroCore s).ivlen = State.reset.ivlen := rfl
@[simp] theorem zeroCore_len (s : State) : (zeroCore s).len = State.reset.len := rfl
@[simp] theorem zeroCore_olen (s : State) : (zeroCore s).olen = State.reset.olen := rfl
@[simp] theorem zeroCore_err (s : State) : (zeroCore s).err = State.reset.err := rfl
@[simp] theorem zeroCore_nk (s : State) : (zeroCore s).nk = State.reset.nk := rfl
@[simp] theorem zeroCore_nr (s : State) : (zeroCore s).nr = State.reset.nr := rfl
@[simp] theorem zeroCore_rkcnt (s : State) : (zeroCore s).rkcnt = State.reset.rkcnt := rfl
@[simp] theorem zeroCore_rk (s : State) : (zeroCore s).rk = State.reset.rk := rfl
@[simp] theorem zeroCore_st (s : State) : (zeroCore s).st = State.reset.st := rfl
@[simp] theorem zeroCore_cv (s : State) : (zeroCore s).cv = State.reset.cv := rfl
@[simp] theorem zeroCore_din (s : State) : (zeroCore s).din = State.reset.din := rfl
@[simp] theorem zeroCore_dout (s : State) : (zeroCore s).dout = State.reset.dout := rfl
@[simp] theorem zeroCore_host (s : State) : (zeroCore s).host = s.host := rfl
@[simp] theorem zeroCore_reads (s : State) : (zeroCore s).reads = s.reads := rfl

/-! The fields after `hostRead`. -/

@[simp] theorem hostRead_key (sel : BitVec 2) (addr : BitVec 32) (s : State) : (hostRead sel addr s).key = s.key := rfl
@[simp] theorem hostRead_keylen (sel : BitVec 2) (addr : BitVec 32) (s : State) : (hostRead sel addr s).keylen = s.keylen := rfl
@[simp] theorem hostRead_iv (sel : BitVec 2) (addr : BitVec 32) (s : State) : (hostRead sel addr s).iv = s.iv := rfl
@[simp] theorem hostRead_ivlen (sel : BitVec 2) (addr : BitVec 32) (s : State) : (hostRead sel addr s).ivlen = s.ivlen := rfl
@[simp] theorem hostRead_len (sel : BitVec 2) (addr : BitVec 32) (s : State) : (hostRead sel addr s).len = s.len := rfl
@[simp] theorem hostRead_olen (sel : BitVec 2) (addr : BitVec 32) (s : State) : (hostRead sel addr s).olen = s.olen := rfl
@[simp] theorem hostRead_err (sel : BitVec 2) (addr : BitVec 32) (s : State) : (hostRead sel addr s).err = s.err := rfl
@[simp] theorem hostRead_nk (sel : BitVec 2) (addr : BitVec 32) (s : State) : (hostRead sel addr s).nk = s.nk := rfl
@[simp] theorem hostRead_nr (sel : BitVec 2) (addr : BitVec 32) (s : State) : (hostRead sel addr s).nr = s.nr := rfl
@[simp] theorem hostRead_rkcnt (sel : BitVec 2) (addr : BitVec 32) (s : State) : (hostRead sel addr s).rkcnt = s.rkcnt := rfl
@[simp] theorem hostRead_rk (sel : BitVec 2) (addr : BitVec 32) (s : State) : (hostRead sel addr s).rk = s.rk := rfl
@[simp] theorem hostRead_st (sel : BitVec 2) (addr : BitVec 32) (s : State) : (hostRead sel addr s).st = s.st := rfl
@[simp] theorem hostRead_cv (sel : BitVec 2) (addr : BitVec 32) (s : State) : (hostRead sel addr s).cv = s.cv := rfl
@[simp] theorem hostRead_din (sel : BitVec 2) (addr : BitVec 32) (s : State) : (hostRead sel addr s).din = s.din := rfl
@[simp] theorem hostRead_dout (sel : BitVec 2) (addr : BitVec 32) (s : State) : (hostRead sel addr s).dout = s.dout := rfl
@[simp] theorem hostRead_host (sel : BitVec 2) (addr : BitVec 32) (s : State) : (hostRead sel addr s).host = s.host := rfl
@[simp] theorem hostRead_reads (sel : BitVec 2) (addr : BitVec 32) (s : State) : (hostRead sel addr s).reads = s.reads ++ [portRead sel addr s] := rfl

/-! The fields after `withFetchWord`. -/

@[simp] theorem withFetchWord_key (s : State) (nbits w : Nat) : (s.withFetchWord nbits w).key = s.key := rfl
@[simp] theorem withFetchWord_keylen (s : State) (nbits w : Nat) : (s.withFetchWord nbits w).keylen = s.keylen := rfl
@[simp] theorem withFetchWord_iv (s : State) (nbits w : Nat) : (s.withFetchWord nbits w).iv = s.iv := rfl
@[simp] theorem withFetchWord_ivlen (s : State) (nbits w : Nat) : (s.withFetchWord nbits w).ivlen = s.ivlen := rfl
@[simp] theorem withFetchWord_len (s : State) (nbits w : Nat) : (s.withFetchWord nbits w).len = s.len := rfl
@[simp] theorem withFetchWord_olen (s : State) (nbits w : Nat) : (s.withFetchWord nbits w).olen = s.olen := rfl
@[simp] theorem withFetchWord_err (s : State) (nbits w : Nat) : (s.withFetchWord nbits w).err = s.err := rfl
@[simp] theorem withFetchWord_nk (s : State) (nbits w : Nat) : (s.withFetchWord nbits w).nk = s.nk := rfl
@[simp] theorem withFetchWord_nr (s : State) (nbits w : Nat) : (s.withFetchWord nbits w).nr = s.nr := rfl
@[simp] theorem withFetchWord_rkcnt (s : State) (nbits w : Nat) : (s.withFetchWord nbits w).rkcnt = s.rkcnt := rfl
@[simp] theorem withFetchWord_rk (s : State) (nbits w : Nat) : (s.withFetchWord nbits w).rk = s.rk := rfl
@[simp] theorem withFetchWord_st (s : State) (nbits w : Nat) : (s.withFetchWord nbits w).st = s.st := rfl
@[simp] theorem withFetchWord_cv (s : State) (nbits w : Nat) : (s.withFetchWord nbits w).cv = s.cv := rfl
@[simp] theorem withFetchWord_din (s : State) (nbits w : Nat) : (s.withFetchWord nbits w).din = s.din := rfl
@[simp] theorem withFetchWord_dout (s : State) (nbits w : Nat) : (s.withFetchWord nbits w).dout = s.dout := rfl
@[simp] theorem withFetchWord_host (s : State) (nbits w : Nat) : (s.withFetchWord nbits w).host = commandWrite nbits w :: s.host := rfl
@[simp] theorem withFetchWord_reads (s : State) (nbits w : Nat) : (s.withFetchWord nbits w).reads = s.reads := rfl

end Sys2Proof.Machine
end

