-- ==== Sys2Proof/Laws/Ops.lean ====
section
/-! SUPPORT. What the shared operations can do, said once: the checks, the frame of the data commands (`runData`), and the shape
of the state a data command leaves. -/

namespace Sys2Proof.Machine

/-! The checks. -/

theorem scheduleHeld_eq_true {s : State} : scheduleHeld s = true ↔ s.rkcnt.toNat = s.nr.toNat + 1 := by
  simp [scheduleHeld]

theorem scheduleHeld_eq_false {s : State} : scheduleHeld s = false ↔ s.rkcnt.toNat ≠ s.nr.toNat + 1 := by
  simp [scheduleHeld]

@[simp] theorem scheduleHeld_clearOutput (s : State) : scheduleHeld (clearOutput s) = scheduleHeld s := rfl
@[simp] theorem rawBlockCheck_clearOutput (s : State) : rawBlockCheck (clearOutput s) = rawBlockCheck s := rfl
@[simp] theorem modeCheck_clearOutput (b c : Bool) (s : State) : modeCheck b c (clearOutput s) = modeCheck b c s := rfl
@[simp] theorem message_clearOutput (s : State) : message (clearOutput s) = message s := rfl

/-- The check of a data command (R173, R174, R195). -/
def dataCheck (i : Instr) : State → Option ErrorKind :=
  if i.isRaw = true then rawBlockCheck else modeCheck i.needsIv i.wholeBlocks

@[simp] theorem dataCheck_clearOutput (i : Instr) (s : State) : dataCheck i (clearOutput s) = dataCheck i s := by
  unfold dataCheck; split <;> rfl

/-- The raw commands' checks pass exactly when a schedule is held and `LEN = 16`. -/
theorem rawBlockCheck_eq_none {s : State} :
    rawBlockCheck s = none ↔ s.rkcnt.toNat = s.nr.toNat + 1 ∧ s.len.toNat = 16 := by
  rw [← scheduleHeld_eq_true]
  unfold rawBlockCheck
  cases scheduleHeld s <;> by_cases h : s.len.toNat = 16 <;> simp [h]

/-- The mode commands' checks pass exactly when all four conditions of R195 hold. -/
theorem modeCheck_eq_none {b c : Bool} {s : State} :
    modeCheck b c s = none ↔ s.rkcnt.toNat = s.nr.toNat + 1 ∧ (b = true → s.ivlen.toNat = 16) ∧
      s.len.toNat ≤ Config.maxLen ∧ (c = true → s.len.toNat % 16 = 0) := by
  rw [← scheduleHeld_eq_true]
  unfold modeCheck
  cases scheduleHeld s <;> cases b <;> cases c <;> by_cases h1 : s.ivlen.toNat = 16 <;>
    by_cases h2 : Config.maxLen < s.len.toNat <;> by_cases h3 : s.len.toNat % 16 = 0 <;>
    simp [h1, h2, h3] <;> omega

/-- A data command passes its checks exactly when a schedule is held and the core is ready for it. -/
theorem dataCheck_eq_none {i : Instr} (hi : i.isData = true) {s : State} :
    dataCheck i s = none ↔ s.rkcnt.toNat = s.nr.toNat + 1 ∧ s.Ready i := by
  cases i <;> simp [Instr.isData, Instr.isRaw, Instr.isMode] at hi <;>
    simp [dataCheck, rawBlockCheck_eq_none, modeCheck_eq_none, State.Ready, Instr.isRaw, Instr.isMode, Instr.needsIv,
      Instr.wholeBlocks]
  all_goals tauto

/-! The frame of the data commands. -/

/-- The block operations of a data command: what they leave in `S` and `CV`, and the bytes they produce (R173, R174, R196 to
R205). -/
def dataRun : Instr → Fin 15 → State → Run
  | .encblk, nr, t => let c := encryptBlock t.rk nr (toBlock (t.din.readBytes 0 16)); ⟨c, t.cv, c.toList⟩
  | .decblk, nr, t => let c := decryptBlock t.rk nr (toBlock (t.din.readBytes 0 16)); ⟨c, t.cv, c.toList⟩
  | .encecb, nr, t => ecbLoop (encryptBlock t.rk nr) t.st t.cv (blocks (pad (message t)))
  | .dececb, nr, t => ecbLoop (decryptBlock t.rk nr) t.st t.cv (blocks (message t))
  | .enccbc, nr, t => cbcEncLoop (encryptBlock t.rk nr) t.st t.iv (blocks (pad (message t)))
  | .deccbc, nr, t => cbcDecLoop (decryptBlock t.rk nr) t.st t.iv (blocks (message t))
  | .enccfb, nr, t => cfbEncLoop (encryptBlock t.rk nr) t.st t.iv (segments (message t))
  | .deccfb, nr, t => cfbDecLoop (encryptBlock t.rk nr) t.st t.iv (segments (message t))
  | .encofb, nr, t => ofbLoop (encryptBlock t.rk nr) t.st t.iv (segments (message t))
  | .decofb, nr, t => ofbLoop (encryptBlock t.rk nr) t.st t.iv (segments (message t))
  | .encctr, nr, t => ctrLoop (encryptBlock t.rk nr) t.st t.iv (segments (message t))
  | .decctr, nr, t => ctrLoop (encryptBlock t.rk nr) t.st t.iv (segments (message t))
  | .expand, _, t => ⟨t.st, t.cv, []⟩
  | .clear, _, t => ⟨t.st, t.cv, []⟩

/-- How a data command ends: the modes that need whole blocks remove the padding, the others give all the bytes out. -/
def dataFinish (i : Instr) : Run → State → State :=
  if i.wholeBlocks = true then finishUnpadded else finishRun

/-- What a data command does once its checks have passed. -/
def dataBody (i : Instr) (nr : Fin 15) (t : State) : State :=
  dataFinish i (dataRun i nr t) t

/-- Every data command is its check and its body in the one frame. -/
theorem exec_data {i : Instr} (hi : i.isData = true) (s : State) : exec i s = runData (dataCheck i) (dataBody i) s := by
  cases i <;> first | rfl | simp [Instr.isData, Instr.isRaw, Instr.isMode] at hi

theorem runData_of_error {check : State → Option ErrorKind} {body : Fin 15 → State → State} {s : State} {e : ErrorKind}
    (h : check (clearOutput s) = some e) : runData check body s = .next (raise e (clearOutput s)) := by
  simp [runData, h]

theorem runData_of_none {check : State → Option ErrorKind} {body : Fin 15 → State → State} {s : State}
    (h : check (clearOutput s) = none) (hn : s.nr.toNat < 15) :
    runData check body s = .next (body ⟨s.nr.toNat, hn⟩ (clearOutput s)) := by
  simp [runData, h, hn]

theorem runData_of_absent {check : State → Option ErrorKind} {body : Fin 15 → State → State} {s : State}
    (h : check (clearOutput s) = none) (hn : ¬ s.nr.toNat < 15) : runData check body s = .fault .roundKeyAbsent := by
  simp [runData, h, hn]

/-- All that the frame can answer with a next state: an error from the check, or the body's state. -/
theorem runData_next {check : State → Option ErrorKind} {body : Fin 15 → State → State} {s t : State}
    (h : runData check body s = .next t) :
    (∃ e, check (clearOutput s) = some e ∧ t = raise e (clearOutput s)) ∨
    (∃ hn : s.nr.toNat < 15, check (clearOutput s) = none ∧ t = body ⟨s.nr.toNat, hn⟩ (clearOutput s)) := by
  cases hc : check (clearOutput s) with
  | some e => rw [runData_of_error hc] at h; exact .inl ⟨e, rfl, by cases h; rfl⟩
  | none =>
    by_cases hn : s.nr.toNat < 15
    · rw [runData_of_none hc hn] at h; exact .inr ⟨hn, rfl, by cases h; rfl⟩
    · rw [runData_of_absent hc hn] at h; cases h

/-- In a keyed state `NR` as an index is `lastRound`. -/
theorem State.Keyed.index_eq {s : State} (h : s.Keyed) : (⟨s.nr.toNat, h.2⟩ : Fin 15) = s.lastRound := by
  apply Fin.ext
  simp [State.lastRound, Fin.ofNat, Nat.mod_eq_of_lt h.2]

/-- A data command on a keyed and ready core runs its body. -/
theorem exec_ready {i : Instr} (hi : i.isData = true) {s : State} (hk : s.Keyed) (hr : s.Ready i) :
    exec i s = .next (dataBody i s.lastRound (clearOutput s)) := by
  rw [exec_data hi, runData_of_none (by rw [dataCheck_clearOutput]; exact (dataCheck_eq_none hi).2 ⟨hk.1, hr⟩) hk.2, hk.index_eq]

/-- A change `f` of the state that the check does not see and that goes through the error and the body goes through the
command. -/
theorem runData_map {check : State → Option ErrorKind} {body : Fin 15 → State → State} {s s' : State} {f : State → State}
    (hnr : s'.nr = s.nr) (hcheck : check (clearOutput s') = check (clearOutput s))
    (hraise : ∀ e, raise e (clearOutput s') = f (raise e (clearOutput s)))
    (hbody : ∀ nr, check (clearOutput s) = none → body nr (clearOutput s') = f (body nr (clearOutput s))) :
    runData check body s' = mapNext f (runData check body s) := by
  unfold runData
  rw [hcheck]
  cases hc : check (clearOutput s) with
  | some e => simp [mapNext, hraise e]
  | none =>
    simp only [hnr]
    by_cases h : s.nr.toNat < 15
    · simp [h, mapNext, hbody _ hc]
    · simp [h, mapNext]

theorem mapNext_id (r : Result) : mapNext id r = r := by
  cases r <;> rfl

/-- The block operations depend on `RK`, `S`, `CV`, `IV` and the message alone (30_encoding.md R95). -/
theorem dataRun_congr {i : Instr} {nr : Fin 15} {s s' : State} (hrk : s'.rk = s.rk) (hst : s'.st = s.st) (hcv : s'.cv = s.cv)
    (hiv : s'.iv = s.iv) (hm : message s' = message s)
    (hraw : i.isRaw = true → s'.din.readBytes 0 16 = s.din.readBytes 0 16) : dataRun i nr s' = dataRun i nr s := by
  cases i <;> simp only [Instr.isRaw, Bool.false_eq_true, false_implies, forall_const] at hraw <;>
    simp only [dataRun, hrk, hst, hcv, hiv, hm, hraw]

/-- A change of the state that goes through the writes at a command's end goes through its end. -/
theorem dataFinish_map {i : Instr} {r : Run} {s s' : State} (f : State → State)
    (hout : ∀ p, finish (storeOutput p (setWorking r.st r.cv s')) = f (finish (storeOutput p (setWorking r.st r.cv s))))
    (hpad : raise .invalidPadding (setWorking r.st r.cv s') = f (raise .invalidPadding (setWorking r.st r.cv s))) :
    dataFinish i r s' = f (dataFinish i r s) := by
  unfold dataFinish
  split
  · unfold finishUnpadded
    cases unpad r.out with
    | none => exact hpad
    | some p => exact hout p
  · exact hout r.out

/-! The shape of what a body leaves. -/

theorem finishRun_eq (r : Run) (s : State) :
    finishRun r s = { s with st := r.st, cv := r.cv, dout := s.dout.writeBytes 0 r.out, olen := BitVec.ofNat 32 r.out.length, err := 0x00#8 } := rfl

theorem finishUnpadded_of_none {r : Run} (h : unpad r.out = none) (s : State) :
    finishUnpadded r s = { s with st := r.st, cv := r.cv, err := 4#8 } := by
  simp only [finishUnpadded, h]; rfl

theorem finishUnpadded_of_some {r : Run} {p : Bytes} (h : unpad r.out = some p) (s : State) :
    finishUnpadded r s = { s with st := r.st, cv := r.cv, dout := s.dout.writeBytes 0 p, olen := BitVec.ofNat 32 p.length, err := 0x00#8 } := by
  simp only [finishUnpadded, h]; rfl

/-- A data command ends well with some output, or (only where it removes padding) with InvalidPadding. -/
theorem dataFinish_shape (i : Instr) (r : Run) (s : State) :
    (∃ out, dataFinish i r s = { s with st := r.st, cv := r.cv, dout := s.dout.writeBytes 0 out, olen := BitVec.ofNat 32 out.length, err := 0x00#8 } ∧
      (out = r.out ∨ unpad r.out = some out)) ∨
    (i.wholeBlocks = true ∧ unpad r.out = none ∧ dataFinish i r s = { s with st := r.st, cv := r.cv, err := 4#8 }) := by
  unfold dataFinish
  split
  · cases h : unpad r.out with
    | none => exact .inr ⟨‹_›, rfl, finishUnpadded_of_none h s⟩
    | some p => exact .inl ⟨p, finishUnpadded_of_some h s, .inr rfl⟩
  · exact .inl ⟨r.out, finishRun_eq r s, .inl rfl⟩

theorem ecbLoop_cv (f : Block → Block) (st cv : Block) (bs : List Block) : (ecbLoop f st cv bs).cv = cv := by
  induction bs generalizing st with
  | nil => rfl
  | cons b bs ih => exact ih (f b)

/-- The ECB and raw commands do not write `CV`. -/
theorem dataRun_cv {i : Instr} (h : i.needsIv = false) (nr : Fin 15) (s : State) : (dataRun i nr s).cv = s.cv := by
  cases i <;> first | rfl | exact ecbLoop_cv .. | simp [Instr.needsIv] at h

/-- All that a data command can answer with a next state: an error of its check, or a good end, or InvalidPadding. -/
theorem exec_data_next {i : Instr} (hi : i.isData = true) {s t : State} (h : exec i s = .next t) :
    (∃ e, dataCheck i s = some e ∧ t = { s with dout := [], olen := 0#32, err := e.code }) ∨
    (dataCheck i s = none ∧ s.nr.toNat < 15 ∧ ∃ (st cv : Block) (out : Bytes),
      ((t = { s with st := st, cv := cv, dout := Memory.writeBytes [] 0 out, olen := BitVec.ofNat 32 out.length, err := 0x00#8 }) ∨
       (i.wholeBlocks = true ∧ t = { s with st := st, cv := cv, dout := [], olen := 0#32, err := 4#8 })) ∧
      (i.needsIv = false → cv = s.cv)) := by
  rw [exec_data hi] at h
  rcases runData_next h with ⟨e, he, rfl⟩ | ⟨hn, hc, rfl⟩
  · exact .inl ⟨e, by simpa using he, rfl⟩
  · refine .inr ⟨by simpa using hc, hn, ?_⟩
    have hcv : i.needsIv = false → (dataRun i ⟨s.nr.toNat, hn⟩ (clearOutput s)).cv = s.cv := fun h => dataRun_cv h ..
    rcases dataFinish_shape i (dataRun i ⟨s.nr.toNat, hn⟩ (clearOutput s)) (clearOutput s) with ⟨out, h, _⟩ | ⟨hw, _, h⟩
    · exact ⟨_, _, out, .inl h, hcv⟩
    · exact ⟨_, _, [], .inr ⟨hw, h⟩, hcv⟩

/-- A command that is no data command is `EXPAND` or `CLEAR`. -/
theorem not_data {i : Instr} (hi : ¬ i.isData = true) : i = .expand ∨ i = .clear := by
  cases i <;> simp [Instr.isData, Instr.isRaw, Instr.isMode] at hi ⊢

/-- The checks read `RKCNT`, `NR`, `LEN` and `IVLEN` only. -/
theorem dataCheck_congr {i : Instr} {s s' : State} (hc : s'.rkcnt = s.rkcnt) (hn : s'.nr = s.nr) (hl : s'.len = s.len)
    (hi : s'.ivlen = s.ivlen) : dataCheck i s' = dataCheck i s := by
  unfold dataCheck
  split <;> simp [rawBlockCheck, modeCheck, scheduleHeld, hc, hn, hl, hi]

theorem dataFinish_plain {i : Instr} (h : i.wholeBlocks = false) (r : Run) (s : State) :
    dataFinish i r s = finishRun r s := by
  simp [dataFinish, h]

theorem dataFinish_padded {i : Instr} (h : i.wholeBlocks = true) (r : Run) (s : State) :
    dataFinish i r s = finishUnpadded r s := by
  simp [dataFinish, h]

/-- What a ready command that removes no padding leaves. -/
theorem exec_ready_plain {i : Instr} (hi : i.isData = true) (hw : i.wholeBlocks = false) {s : State}
    (hk : s.Keyed) (hr : s.Ready i) {st cv : Block} {out : Bytes}
    (h : dataRun i s.lastRound (clearOutput s) = ⟨st, cv, out⟩) :
    exec i s = .next { s with st := st, cv := cv, dout := Memory.writeBytes [] 0 out, olen := BitVec.ofNat 32 out.length, err := 0#8 } := by
  rw [exec_ready hi hk hr, dataBody, h, dataFinish_plain hw, finishRun_eq]
  rfl

/-- What a ready command leaves whose padding is invalid. -/
theorem exec_ready_invalid {i : Instr} (hi : i.isData = true) (hw : i.wholeBlocks = true) {s : State}
    (hk : s.Keyed) (hr : s.Ready i) {st cv : Block} {out : Bytes}
    (h : dataRun i s.lastRound (clearOutput s) = ⟨st, cv, out⟩) (hu : unpad out = none) :
    exec i s = .next { s with st := st, cv := cv, dout := [], olen := 0#32, err := 4#8 } := by
  rw [exec_ready hi hk hr, dataBody, h, dataFinish_padded hw, finishUnpadded_of_none hu]
  rfl

/-- What a ready command leaves that removes padding. -/
theorem exec_ready_unpadded {i : Instr} (hi : i.isData = true) (hw : i.wholeBlocks = true) {s : State}
    (hk : s.Keyed) (hr : s.Ready i) {st cv : Block} {out p : Bytes}
    (h : dataRun i s.lastRound (clearOutput s) = ⟨st, cv, out⟩) (hu : unpad out = some p) :
    exec i s = .next { s with st := st, cv := cv, dout := Memory.writeBytes [] 0 p, olen := BitVec.ofNat 32 p.length, err := 0#8 } := by
  rw [exec_ready hi hk hr, dataBody, h, dataFinish_padded hw, finishUnpadded_of_some hu]
  rfl

end Sys2Proof.Machine
end

