-- ==== Sys2Proof/Laws/Segments.lean ====
section
/-! SUPPORT. Messages, segments, blocks and padding, byte by byte: what `message`, `segments`, `blocks`, `pad` and the output
buffer hold at each position. -/

namespace Sys2Proof.Machine

/-- Blocks with the same bytes are the same. -/
theorem Block.ext_fin {s t : Block} (h : ∀ i : Fin 16, s[i] = t[i]) : s = t :=
  Vector.ext fun i hi => h ⟨i, hi⟩

@[simp] theorem toBlock_getElem (x : Bytes) (i : Nat) (h : i < 16) : (toBlock x)[i] = x.getD i 0x00#8 := by
  simp [toBlock]

@[simp] theorem readBlock_getElem (m : Memory) (j i : Nat) (h : i < 16) : (readBlock m j)[i] = m.read (16 * j + i) := by
  simp [readBlock]

@[simp] theorem paddedBlock_getElem (s : State) (j i : Nat) (h : i < 16) :
    (paddedBlock s j)[i] = if 16 * j + i < s.len.toNat then s.din.read (16 * j + i) else BitVec.ofNat 8 (16 - s.len.toNat % 16) := by
  simp [paddedBlock]

@[simp] theorem xorBlock_getElem (a b : Block) (i : Nat) (h : i < 16) : (xorBlock a b)[i] = a[i] ^^^ b[i] := by
  simp [xorBlock]

theorem xorBlock_cancel (a b : Block) : xorBlock (xorBlock a b) b = a := by
  apply Block.ext_fin; intro i
  simp

@[simp] theorem toBlock_toList (b : Block) : toBlock b.toList = b := by
  apply Block.ext_fin; intro i
  simp

theorem toBlock_congr {x y : Bytes} (h : ∀ i, i < 16 → x.getD i 0x00#8 = y.getD i 0x00#8) : toBlock x = toBlock y := by
  apply Block.ext_fin; intro i
  simpa using h i.val i.isLt

theorem message_length (s : State) : (message s).length = s.len.toNat := by simp [message]

theorem message_getD (s : State) (a : Nat) (h : a < s.len.toNat) (d : Byte) : (message s).getD a d = s.din.read a := by
  have h' : a < (message s).length := by simpa [message] using h
  rw [List.getD_eq_getElem _ _ h']
  exact (Memory.getElem_readBytes s.din 0 s.len.toNat a h').trans (by simp)

theorem length_takeSegments (k : Nat) (x : Bytes) : (takeSegments k x).length = k := by
  induction k generalizing x with
  | zero => rfl
  | succ k ih => simp [takeSegments, ih]

theorem length_segments (x : Bytes) : (segments x).length = nSeg x.length :=
  length_takeSegments ..

theorem takeSegments_getElem (k : Nat) (x : Bytes) (j : Nat) (h : j < (takeSegments k x).length) :
    (takeSegments k x)[j] = (x.drop (16 * j)).take 16 := by
  induction k generalizing x j with
  | zero => simp [takeSegments] at h
  | succ k ih =>
    cases j with
    | zero => simp [takeSegments]
    | succ j =>
      have := ih (x.drop 16) j (by simpa [takeSegments] using h)
      simp only [takeSegments, List.getElem_cons_succ, this, List.drop_drop]
      congr 2; omega

theorem segments_getElem (x : Bytes) (j : Nat) (h : j < (segments x).length) :
    (segments x)[j] = (x.drop (16 * j)).take 16 :=
  takeSegments_getElem ..

theorem length_blocks (x : Bytes) : (blocks x).length = nSeg x.length := by
  simp [blocks, length_segments]

/-- Block `j` of a sequence of whole blocks. -/
theorem blocks_getElem (x : Bytes) (j : Nat) (h : j < (blocks x).length) (i : Nat) (hi : i < 16) :
    (blocks x)[j][i] = x.getD (16 * j + i) 0x00#8 := by
  simp only [blocks, List.getElem_map, segments_getElem, toBlock_getElem, List.getD_eq_getElem?_getD]
  rw [List.getElem?_take_of_lt hi, List.getElem?_drop]

/-- Whole blocks put together again. -/
def unblocks (bs : List Block) : Bytes :=
  (bs.map Vector.toList).flatten

@[simp] theorem unblocks_nil : unblocks [] = [] := rfl

@[simp] theorem unblocks_cons (b : Block) (bs : List Block) : unblocks (b :: bs) = b.toList ++ unblocks bs := rfl

@[simp] theorem length_unblocks (bs : List Block) : (unblocks bs).length = 16 * bs.length := by
  induction bs with
  | nil => rfl
  | cons b bs ih => simp [ih]; omega

theorem unblocks_getD (bs : List Block) (a : Nat) (h : a / 16 < bs.length) (d : Byte) :
    (unblocks bs).getD a d = bs[a / 16][a % 16] := by
  induction bs generalizing a with
  | nil => simp at h
  | cons b bs ih =>
    by_cases ha : a < 16
    · have h0 : a / 16 = 0 := by omega
      have h1 : a % 16 = a := by omega
      simp only [unblocks_cons, h0, List.getElem_cons_zero, h1]
      rw [List.getD_append _ _ _ _ (by simpa using ha)]
      simp [ha]
    · have h0 : a / 16 = (a - 16) / 16 + 1 := by omega
      have h1 : a % 16 = (a - 16) % 16 := by omega
      simp only [unblocks_cons, h0, List.getElem_cons_succ, h1]
      rw [List.getD_append_right _ _ _ _ (by simp; omega)]
      simpa using ih (a - 16) (by simp at h; omega)

@[simp] theorem length_pad (p : Bytes) : (pad p).length = p.length + (16 - p.length % 16) := by
  simp [pad]

theorem pad_getD (p : Bytes) (a : Nat) (h : a < (pad p).length) (d : Byte) :
    (pad p).getD a d = if a < p.length then p.getD a d else BitVec.ofNat 8 (16 - p.length % 16) := by
  unfold pad
  split
  · rw [List.getD_append _ _ _ _ ‹_›]
  · rw [List.getD_append_right _ _ _ _ (by omega)]
    simp only [length_pad] at h
    rw [List.getD_eq_getElem _ _ (by simp; omega)]
    simp

/-- The blocks of the padded message are the padded blocks. -/
theorem blocks_pad_message (s : State) (j : Nat) (h : j < (blocks (pad (message s))).length) :
    (blocks (pad (message s)))[j] = paddedBlock s j := by
  apply Block.ext_fin; intro i
  have hl : 16 * j + i.val < (pad (message s)).length := by
    simp only [length_blocks, length_pad, nSeg] at h ⊢; omega
  simp only [Fin.getElem_fin]
  rw [blocks_getElem _ _ _ _ i.isLt, pad_getD _ _ hl, paddedBlock_getElem _ _ _ i.isLt, message_length]
  split
  · rw [message_getD _ _ ‹_›]
  · rfl

/-- The blocks of a message of whole blocks are those of the buffer. -/
theorem blocks_message (s : State) (hl : s.len.toNat % 16 = 0) (j : Nat) (h : j < (blocks (message s)).length) :
    (blocks (message s))[j] = readBlock s.din j := by
  apply Block.ext_fin; intro i
  simp only [Fin.getElem_fin]
  rw [blocks_getElem _ _ _ _ i.isLt, readBlock_getElem _ _ _ i.isLt, message_getD]
  simp only [length_blocks, message_length, nSeg] at h
  omega

/-- Blocks written to the empty output buffer read back. -/
theorem readBlock_unblocks (bs : List Block) (j : Nat) (h : j < bs.length) : readBlock (Memory.writeBytes [] 0 (unblocks bs)) j = bs[j] := by
  apply Block.ext_fin; intro i
  simp only [Fin.getElem_fin]
  rw [readBlock_getElem _ _ _ i.isLt, Memory.read_writeBytes_nil, unblocks_getD _ _ (by omega)]
  simp [show (16 * j + i.val) / 16 = j by omega, Nat.mod_eq_of_lt i.isLt]

/-- The output buffer is zero above what was written. -/
theorem read_above (out : Bytes) (a : Nat) (h : out.length ≤ a) : (Memory.writeBytes [] 0 out).read a = 0x00#8 := by
  rw [Memory.read_writeBytes_nil, List.getD_eq_default _ _ h]; rfl

end Sys2Proof.Machine
end

