-- ==== Sys2Proof/Laws/Modes.lean ====
section
/-! SUPPORT. What each segment loop of the mode controller leaves in `S` and `CV` and produces, in closed form. -/

namespace Sys2Proof.Machine

/-! The loops over blocks. -/

theorem ecbLoop_out (f : Block → Block) (st cv : Block) (bs : List Block) : (ecbLoop f st cv bs).out = unblocks (bs.map f) := by
  induction bs generalizing st with
  | nil => rfl
  | cons b bs ih => simp [ecbLoop, Run.after, ih]

theorem ecbLoop_st (f : Block → Block) (st cv : Block) (bs : List Block) : (ecbLoop f st cv bs).st = (bs.map f).getLastD st := by
  induction bs generalizing st with
  | nil => rfl
  | cons b bs ih => simp only [ecbLoop, Run.after, ih, List.map_cons, List.getLastD_cons]

/-- All that the ECB loop does. -/
theorem ecbLoop_eq (f : Block → Block) (st cv : Block) (bs : List Block) :
    ecbLoop f st cv bs = ⟨(bs.map f).getLastD st, cv, unblocks (bs.map f)⟩ := by
  have h1 := ecbLoop_st f st cv bs
  have h2 := ecbLoop_out f st cv bs
  have h3 := ecbLoop_cv f st cv bs
  generalize ecbLoop f st cv bs = r at *
  cases r; simp only at h1 h2 h3; rw [h1, h2, h3]
/-- The last block of a list. -/
theorem getLastD_eq (bs : List Block) (d : Block) : bs.getLastD d = if h : bs.length = 0 then d else bs[bs.length - 1] := by
  split
  · have : bs = [] := by simpa using ‹bs.length = 0›
    simp [this]
  · rw [List.getLastD_eq_getLast?, List.getLast?_eq_getElem?, List.getElem?_eq_getElem (by omega)]; rfl

/-- The ciphertext blocks of CBC encryption, each from the one before it. -/
def cbcChain (e : Block → Block) : Block → List Block → List Block
  | _, [] => []
  | cv, b :: bs => e (xorBlock b cv) :: cbcChain e (e (xorBlock b cv)) bs

/-- All that the CBC encryption loop does. -/
theorem cbcEncLoop_eq (e : Block → Block) (st cv : Block) (bs : List Block) :
    cbcEncLoop e st cv bs = ⟨(cbcChain e cv bs).getLastD st, (cbcChain e cv bs).getLastD cv, unblocks (cbcChain e cv bs)⟩ := by
  induction bs generalizing st cv with
  | nil => rfl
  | cons b bs ih => simp only [cbcEncLoop, Run.after, ih, cbcChain, List.getLastD_cons, unblocks_cons]

@[simp] theorem length_cbcChain (e : Block → Block) (cv : Block) (bs : List Block) : (cbcChain e cv bs).length = bs.length := by
  induction bs generalizing cv with
  | nil => rfl
  | cons b bs ih => simp [cbcChain, ih]

/-- A ciphertext block is the cipher of its plaintext block and the ciphertext block before it, the IV for the first. -/
theorem cbcChain_getElem (e : Block → Block) (cv : Block) (bs : List Block) (j : Nat) (h : j < (cbcChain e cv bs).length) :
    (cbcChain e cv bs)[j] = e (xorBlock (bs[j]'(by simpa using h)) (if _ : j = 0 then cv else (cbcChain e cv bs)[j - 1])) := by
  induction bs generalizing cv j with
  | nil => simp [cbcChain] at h
  | cons b bs ih =>
    cases j with
    | zero => simp [cbcChain]
    | succ j =>
      have := ih (e (xorBlock b cv)) j (by simpa [cbcChain] using h)
      simp only [cbcChain, List.getElem_cons_succ, this]
      cases j with
      | zero => simp
      | succ j => simp

/-- All that the CBC decryption loop does. -/
theorem cbcDecLoop_eq (d : Block → Block) (st cv : Block) (bs : List Block) :
    cbcDecLoop d st cv bs = ⟨(bs.map d).getLastD st, bs.getLastD cv, unblocks (List.zipWith (fun c p => xorBlock (d c) p) bs (cv :: bs))⟩ := by
  induction bs generalizing st cv with
  | nil => rfl
  | cons b bs ih => simp only [cbcDecLoop, Run.after, ih, List.map_cons, List.getLastD_cons, List.zipWith_cons_cons, unblocks_cons]

/-! The loops over segments. -/

/-- Segments combined with the keystream blocks `k 0`, `k 1`, ... -/
def keystreamXor : List Bytes → (Nat → Block) → Bytes
  | [], _ => []
  | x :: xs, k => xorPrefix x (k 0) ++ keystreamXor xs (fun j => k (j + 1))

@[simp] theorem length_xorPrefix (x : Bytes) (k : Block) (h : x.length ≤ 16) : (xorPrefix x k).length = x.length := by
  simp [xorPrefix]; omega

theorem xorPrefix_getD (x : Bytes) (k : Block) (a : Nat) (h : a < x.length) (h2 : a < 16) (d : Byte) :
    (xorPrefix x k).getD a d = x.getD a d ^^^ k[a] := by
  rw [List.getD_eq_getElem _ _ (by simp [xorPrefix]; omega), List.getD_eq_getElem _ _ h]
  simp [xorPrefix]

theorem length_keystreamXor (n : Nat) (x : Bytes) (k : Nat → Block) (h : x.length ≤ 16 * n) :
    (keystreamXor (takeSegments n x) k).length = x.length := by
  induction n generalizing x k with
  | zero => simp at h; subst h; rfl
  | succ n ih =>
    simp only [takeSegments, keystreamXor, List.length_append]
    rw [ih _ _ (by simp; omega), length_xorPrefix _ _ (by simp)]
    simp; omega

/-- Byte `a` of the output is byte `a` of the input and of the keystream. -/
theorem keystreamXor_getD (n : Nat) (x : Bytes) (k : Nat → Block) (h : x.length ≤ 16 * n) (a : Nat) (ha : a < x.length) (d : Byte) :
    (keystreamXor (takeSegments n x) k).getD a d = x.getD a d ^^^ byteAt k a := by
  induction n generalizing x k a with
  | zero => omega
  | succ n ih =>
    simp only [takeSegments, keystreamXor]
    by_cases h16 : a < 16
    · rw [List.getD_append _ _ _ _ (by rw [length_xorPrefix _ _ (by simp)]; simp; omega), xorPrefix_getD _ _ _ (by simp; omega) h16]
      congr 1
      · simp [List.getD_eq_getElem?_getD, List.getElem?_take_of_lt h16]
      · simp [byteAt, show a / 16 = 0 by omega, show a % 16 = a by omega]
    · have hl : (List.take 16 x).length = 16 := by simp; omega
      rw [List.getD_append_right _ _ _ _ (by rw [length_xorPrefix _ _ (by simp)]; omega), length_xorPrefix _ _ (by simp), hl]
      rw [ih _ _ (by simp; omega) _ (by simp; omega)]
      congr 1
      · simp [List.getD_eq_getElem?_getD, show 16 + (a - 16) = a by omega]
      · simp only [byteAt, show (a - 16) / 16 + 1 = a / 16 by omega, show (a - 16) % 16 = a % 16 by omega]

/-- All that the OFB loop does, for the keystream `k`. -/
theorem ofbLoop_eq (e : Block → Block) (st cv : Block) (xs : List Bytes) (k : Nat → Block) (h0 : k 0 = e cv) (hk : ∀ j, k (j + 1) = e (k j)) :
    ofbLoop e st cv xs = ⟨if xs.length = 0 then st else k (xs.length - 1), if xs.length = 0 then cv else k (xs.length - 1), keystreamXor xs k⟩ := by
  induction xs generalizing st cv k with
  | nil => rfl
  | cons x xs ih =>
    simp only [ofbLoop, Run.after, keystreamXor, ← h0]
    rw [ih (k 0) (k 0) (fun j => k (j + 1)) (hk 0) (fun j => hk (j + 1))]
    cases xs <;> simp

/-- All that the CTR loop does, for the counter blocks `c`. -/
theorem ctrLoop_eq (e : Block → Block) (st cv : Block) (xs : List Bytes) (c : Nat → Block) (h0 : c 0 = cv) (hc : ∀ j, c (j + 1) = ctrInc (c j)) :
    ctrLoop e st cv xs = ⟨if xs.length = 0 then st else e (c (xs.length - 1)), c xs.length, keystreamXor xs (fun j => e (c j))⟩ := by
  induction xs generalizing st cv c with
  | nil => simp [ctrLoop, keystreamXor, h0]
  | cons x xs ih =>
    simp only [ctrLoop, Run.after, keystreamXor]
    rw [ih (e cv) (ctrInc cv) (fun j => c (j + 1)) (by rw [hc 0, h0]) (fun j => hc (j + 1))]
    cases xs <;> simp [h0]

/-- All that the CFB encryption loop does: `prev j` is the ciphertext block before segment `j`, read from the output. -/
theorem cfbEncLoop_eq (e : Block → Block) (st cv : Block) (n : Nat) (x : Bytes) (h1 : x.length ≤ 16 * n) (h2 : 16 * n < x.length + 16) :
    ∃ prev : Nat → Block, prev 0 = cv ∧
      (∀ j, 16 * (j + 1) ≤ x.length → prev (j + 1) = toBlock ((cfbEncLoop e st cv (takeSegments n x)).out.drop (16 * j))) ∧
      cfbEncLoop e st cv (takeSegments n x) =
        ⟨if n = 0 then st else e (prev (n - 1)), prev (x.length / 16), keystreamXor (takeSegments n x) (fun j => e (prev j))⟩ := by
  induction n generalizing st cv x with
  | zero =>
    have : x = [] := by simpa using h1
    subst this
    exact ⟨fun _ => cv, rfl, by simp, rfl⟩
  | succ n ih =>
    by_cases hx : x.length < 16
    · have hn : n = 0 := by omega
      subst hn
      refine ⟨fun _ => cv, rfl, by omega, ?_⟩
      have : List.take 16 x = x := List.take_of_length_le (by omega)
      have hf : feedBack (xorPrefix x (e cv)) cv = cv := by
        unfold feedBack; rw [length_xorPrefix _ _ (by omega), if_neg (by omega)]
      simp [takeSegments, cfbEncLoop, Run.after, keystreamXor, this, hf]
    · have hl : (List.take 16 x).length = 16 := by simp; omega
      have hc : (xorPrefix (List.take 16 x) (e cv)).length = 16 := by rw [length_xorPrefix _ _ (by omega), hl]
      have hf : feedBack (xorPrefix (List.take 16 x) (e cv)) cv = toBlock (xorPrefix (List.take 16 x) (e cv)) := by
        unfold feedBack; rw [if_pos hc]
      obtain ⟨p, p0, p1, p2⟩ := ih (e cv) (toBlock (xorPrefix (List.take 16 x) (e cv))) (x.drop 16) (by simp; omega) (by simp; omega)
      refine ⟨fun j => match j with | 0 => cv | j + 1 => p j, rfl, fun j hj => ?_, ?_⟩
      · simp only [takeSegments, cfbEncLoop, Run.after, hf]
        cases j with
        | zero =>
          simp only [p0]
          apply toBlock_congr; intro i hi
          rw [Nat.mul_zero, List.drop_zero, List.getD_append _ _ _ _ (by omega)]
        | succ j =>
          simp only [p1 j (by simp; omega)]
          have hd : ∀ y : Bytes, (xorPrefix (List.take 16 x) (e cv) ++ y).drop (16 * (j + 1)) = y.drop (16 * j) := by
            intro y
            rw [List.drop_append, List.drop_of_length_le (by omega), hc, List.nil_append]
            congr 1
          rw [hd]
      · simp only [takeSegments, cfbEncLoop, Run.after, hf, p2, keystreamXor]
        congr 1
        · cases n <;> simp
        · rw [show x.length / 16 = (x.drop 16).length / 16 + 1 by simp; omega]

/-- All that the CFB decryption loop does: `prev j` is the ciphertext block before segment `j`, read from the input. -/
theorem cfbDecLoop_eq (e : Block → Block) (st cv : Block) (n : Nat) (x : Bytes) (h1 : x.length ≤ 16 * n) (h2 : 16 * n < x.length + 16) :
    ∃ prev : Nat → Block, prev 0 = cv ∧
      (∀ j, 16 * (j + 1) ≤ x.length → prev (j + 1) = toBlock (x.drop (16 * j))) ∧
      cfbDecLoop e st cv (takeSegments n x) =
        ⟨if n = 0 then st else e (prev (n - 1)), prev (x.length / 16), keystreamXor (takeSegments n x) (fun j => e (prev j))⟩ := by
  induction n generalizing st cv x with
  | zero =>
    have : x = [] := by simpa using h1
    subst this
    exact ⟨fun _ => cv, rfl, by simp, rfl⟩
  | succ n ih =>
    by_cases hx : x.length < 16
    · have hn : n = 0 := by omega
      subst hn
      refine ⟨fun _ => cv, rfl, by omega, ?_⟩
      have : List.take 16 x = x := List.take_of_length_le (by omega)
      have hf : feedBack x cv = cv := by
        unfold feedBack; rw [if_neg (by omega)]
      simp [takeSegments, cfbDecLoop, Run.after, keystreamXor, this, hf]
    · have hl : (List.take 16 x).length = 16 := by simp; omega
      have hf : feedBack (List.take 16 x) cv = toBlock (List.take 16 x) := by
        unfold feedBack; rw [if_pos hl]
      obtain ⟨p, p0, p1, p2⟩ := ih (e cv) (toBlock (List.take 16 x)) (x.drop 16) (by simp; omega) (by simp; omega)
      refine ⟨fun j => match j with | 0 => cv | j + 1 => p j, rfl, fun j hj => ?_, ?_⟩
      · cases j with
        | zero =>
          simp only [p0]
          apply toBlock_congr; intro i hi
          simp [List.getD_eq_getElem?_getD, List.getElem?_take_of_lt hi]
        | succ j =>
          simp only [p1 j (by simp; omega)]
          rw [List.drop_drop, show 16 * (j + 1) = 16 + 16 * j by omega]
      · simp only [takeSegments, cfbDecLoop, Run.after, hf, p2, keystreamXor]
        congr 1
        · cases n <;> simp
        · rw [show x.length / 16 = (x.drop 16).length / 16 + 1 by simp; omega]

end Sys2Proof.Machine
end

