-- ==== Sys2Proof/Laws/PerInstr.lean ====
section
/-! SUPPORT. The family of per-instruction statements. EncodingFields: the `Byte` column of R92 is the byte packed from its `OPC`,
`MODE` and `DIR` columns (R90), and those fields are legal (R91). -/

namespace Sys2Proof.Laws.EncodingFields

def Statement (i : Instr) : Prop :=
  encode i = C8.pack i.fields ∧ i.wellFormed = true

theorem expand : Statement .expand := ⟨by decide, by decide⟩
theorem encblk : Statement .encblk := ⟨by decide, by decide⟩
theorem decblk : Statement .decblk := ⟨by decide, by decide⟩
theorem encecb : Statement .encecb := ⟨by decide, by decide⟩
theorem dececb : Statement .dececb := ⟨by decide, by decide⟩
theorem enccbc : Statement .enccbc := ⟨by decide, by decide⟩
theorem deccbc : Statement .deccbc := ⟨by decide, by decide⟩
theorem enccfb : Statement .enccfb := ⟨by decide, by decide⟩
theorem deccfb : Statement .deccfb := ⟨by decide, by decide⟩
theorem encofb : Statement .encofb := ⟨by decide, by decide⟩
theorem decofb : Statement .decofb := ⟨by decide, by decide⟩
theorem encctr : Statement .encctr := ⟨by decide, by decide⟩
theorem decctr : Statement .decctr := ⟨by decide, by decide⟩
theorem clear : Statement .clear := ⟨by decide, by decide⟩

end Sys2Proof.Laws.EncodingFields
end

