-- ==== Sys2Proof/Laws/Port.lean ====
section
/-! SUPPORT. The bytes of the 32-bit registers as the host port reads and writes them (20_memory.md R61, R69). -/

namespace Sys2Proof.Machine

/-- Byte `k` as a digit of the value. -/
theorem byteOf_eq (x : BitVec 32) (k : Nat) : byteOf x k = BitVec.ofNat 8 (x.toNat / 256^k) := by
  apply BitVec.eq_of_toNat_eq
  simp [byteOf, Nat.shiftRight_eq_div_pow, pow_mul]

theorem byteOf_withByte_fin (x : BitVec 32) (b : Byte) : ∀ k j : Fin 4, byteOf (withByte x k.val b) j.val = if j = k then b else byteOf x j.val := by
  intro k j
  fin_cases k <;> fin_cases j <;> simp [byteOf, withByte] <;> ext i hi <;> simp [hi] <;>
   interval_cases i <;> simp

/-- A replaced byte of a 32-bit register reads as written, the others as before. -/
theorem byteOf_withByte (x : BitVec 32) (b : Byte) (k j : Nat) (hk : k < 4) (hj : j < 4) : byteOf (withByte x k b) j = if j = k then b else byteOf x j := by
  have := byteOf_withByte_fin x b ⟨k, hk⟩ ⟨j, hj⟩
  simpa [Fin.ext_iff] using this

/-- The four bytes of `MAXLEN` are those of its value. -/
theorem maxLenWord_toNat : maxLenWord.toNat = Config.maxLen := by
  have := Config.maxLenAbove16.isLt
  unfold maxLenWord Config.maxLen at *
  simp [BitVec.toNat_ofNat]; omega

end Sys2Proof.Machine
end

