-- ==== Sys2Proof/Laws/Script.lean ====
section
/-! SUPPORT. A host script is done event by event: no event looks at the events still pending, so a script is the sequence of its
events, and two scripts in a row are the two one after the other. -/

namespace Sys2Proof.Machine

/-- The same state with other events pending. -/
abbrev State.withHost (h : List HostEvent) (s : State) : State :=
  { s with host := h }

/-- Go on from a next state; a fault or a refusal ends the run. -/
def thenRun (r : Result) (k : State → Result) : Result :=
  match r with
  | .next t => k t
  | .fault f => .fault f
  | .refused f => .refused f

@[simp] theorem thenRun_next (t : State) (k : State → Result) : thenRun (.next t) k = k t := rfl

/-- No command looks at the pending events. -/
theorem exec_withHost (i : Instr) (h : List HostEvent) (s : State) :
    exec i (s.withHost h) = mapNext (State.withHost h) (exec i s) := by
  by_cases hi : i.isData = true
  · rw [exec_data hi, exec_data hi]
    refine runData_map rfl (dataCheck_congr rfl rfl rfl rfl) (fun _ => rfl) fun nr _ => ?_
    have hr : dataRun i nr (clearOutput (s.withHost h)) = dataRun i nr (clearOutput s) :=
      dataRun_congr rfl rfl rfl rfl rfl fun _ => rfl
    unfold dataBody
    rw [hr]
    exact dataFinish_map (State.withHost h) (fun _ => rfl) rfl
  · rcases not_data hi with rfl | rfl
    · simp only [exec, execExpand]
      cases params s.keylen.toNat <;> rfl
    · rfl

/-- No event looks at the pending events. -/
theorem hostEvent_withHost (e : HostEvent) (h : List HostEvent) (s : State) :
    hostEvent e (s.withHost h) = mapNext (State.withHost h) (hostEvent e s) := by
  cases e with
  | read sel addr => rfl
  | reset => rfl
  | write sel addr data =>
    simp only [hostEvent, hostWrite]
    split
    · unfold runCommand
      split
      · exact exec_withHost ..
      · rfl
    · simp only [mapNext]
      unfold portWrite regWrite dinWrite
      repeat' split
      all_goals rfl

/-- An event that answers a next state leaves the pending events as they were. -/
theorem host_of_hostEvent {e : HostEvent} {s t : State} (h : hostEvent e s = .next t) : t.host = s.host := by
  have hw := hostEvent_withHost e s.host s
  rw [show s.withHost s.host = s from rfl, h] at hw
  simp only [mapNext, Host.Outcome.next.injEq] at hw
  rw [hw]

@[simp] theorem runScript_nil (s : State) : runScript [] s = .next s := rfl

/-- A script is its first event and then the rest. -/
theorem runScript_cons (e : HostEvent) (es : List HostEvent) (s : State) :
    runScript (e :: es) s = thenRun (hostEvent e s) (runScript es) := by
  have hw := hostEvent_withHost e (es ++ s.host) s
  simp only [State.withHost] at hw
  show (match hostEvent e { s with host := es ++ s.host } with
    | .next t => runSteps es.length t
    | .fault r => .fault r
    | .refused r => .refused r) = _
  rw [hw]
  cases h : hostEvent e s with
  | next t =>
    simp only [mapNext, thenRun_next, runScript, host_of_hostEvent h]
  | fault r => rfl
  | refused r => rfl

/-- Two scripts in a row. -/
theorem runScript_append (es fs : List HostEvent) (s : State) :
    runScript (es ++ fs) s = thenRun (runScript es s) (runScript fs) := by
  induction es generalizing s with
  | nil => rfl
  | cons e es ih =>
    rw [List.cons_append, runScript_cons, runScript_cons]
    cases hostEvent e s with
    | next t => exact ih t
    | fault r => rfl
    | refused r => rfl

/-- A run of reads gives the bytes of its addresses to the host and changes no state of the core. -/
theorem runScript_readsFrom (sel : BitVec 2) (base n : Nat) (s : State) :
    runScript (readsFrom sel base n) s = .next { s with
      reads := s.reads ++ (List.range' base n).map fun a => portRead sel (BitVec.ofNat 32 a) s } := by
  induction n generalizing base s with
  | zero => simp [readsFrom]
  | succ n ih =>
    rw [readsFrom, runScript_cons]
    show runScript _ (hostRead sel (BitVec.ofNat 32 base) s) = _
    rw [ih]
    simp only [hostRead, List.range'_succ, List.map_cons, List.append_assoc, List.singleton_append]
    rfl

/-- An operation goes on where its script ended. -/
theorem andThen_next {script : List HostEvent} {k : State → Call} {s t : State} (h : runScript script s = .next t) :
    andThen script k s = k t := by
  simp only [andThen, h]

/-- A checked script runs, reads `ERR`, and goes on or gives the error kind (R100). -/
theorem checked_next {script : List HostEvent} {k : State → Call} {s t : State} (h : runScript script s = .next t) :
    checked script k s =
      if t.err = 0x00#8 then k { t with reads := t.reads ++ [t.err] }
      else .next ({ t with reads := t.reads ++ [t.err] }, .error t.err) := by
  have he : runScript (script ++ getErr) s = .next { t with reads := t.reads ++ [t.err] } := by
    rw [runScript_append, h, thenRun_next, getErr, runScript_readsFrom]
    rfl
  rw [checked, andThen_next he]
  simp

/-- A 32-bit register is assembled from its four bytes (R94). -/
theorem assemble_bytes (x : BitVec 32) : assemble (byteOf x 0) (byteOf x 1) (byteOf x 2) (byteOf x 3) = x := by
  have := x.isLt
  apply BitVec.eq_of_toNat_eq
  simp [assemble, byteOf, Nat.shiftRight_eq_div_pow, Nat.shiftLeft_eq]
  omega

/-- The last bytes read are those of the last run of reads. -/
theorem lastReads_append (r x : Bytes) (s : State) (n : Nat) (h : x.length = n) : lastReads n { s with reads := r ++ x } = x := by
  simp [lastReads, h]

/-- `GETOUT` gives the first `OLEN` bytes of `DOUT` and changes nothing but the list of bytes read (R99). -/
theorem getOut_eq (s : State) : ∃ t,
    getOut s = .next (t, .output ((List.range s.olen.toNat).map fun a => portRead 2#2 (BitVec.ofNat 32 a) s)) ∧
    t = { s with reads := t.reads } := by
  refine ⟨{ s with reads := s.reads ++ [byteOf s.olen 0, byteOf s.olen 1, byteOf s.olen 2, byteOf s.olen 3] ++ (List.range s.olen.toNat).map fun a => portRead 2#2 (BitVec.ofNat 32 a) s }, ?_, rfl⟩
  unfold getOut
  have h4 : runScript getOutLen s = .next { s with reads := s.reads ++ [byteOf s.olen 0, byteOf s.olen 1, byteOf s.olen 2, byteOf s.olen 3] } := by
    rw [getOutLen, runScript_readsFrom]; rfl
  rw [andThen_next h4]
  have hl : lastReads 4 { s with reads := s.reads ++ [byteOf s.olen 0, byteOf s.olen 1, byteOf s.olen 2, byteOf s.olen 3] } = [byteOf s.olen 0, byteOf s.olen 1, byteOf s.olen 2, byteOf s.olen 3] := lastReads_append _ _ s _ rfl
  simp only [hl, List.getD_cons_zero, List.getD_cons_succ, assemble_bytes]
  have := runScript_readsFrom 2#2 0 s.olen.toNat { s with reads := s.reads ++ [byteOf s.olen 0, byteOf s.olen 1, byteOf s.olen 2, byteOf s.olen 3] }
  rw [getOutBytes, andThen_next this]
  have hp : ∀ a, portRead 2#2 (BitVec.ofNat 32 a) { s with reads := s.reads ++ [byteOf s.olen 0, byteOf s.olen 1, byteOf s.olen 2, byteOf s.olen 3] } = portRead 2#2 (BitVec.ofNat 32 a) s := fun _ => rfl
  simp only [hp, ← List.range_eq_range']
  rw [lastReads_append _ _ s _ (by simp)]

end Sys2Proof.Machine
end

