-- ==== Sys2Proof/Tests/Slice0.lean ====
section
/-! SUPPORT. Tests of the model: the checks of WellFormed, the decoder on words written out from R92, one step of every command on
the vectors of spec/95_test_vectors.md, and for every obligation with hypotheses a witness that meets them. -/

namespace Sys2Proof.Machine.Test

open Sys2Proof Sys2Proof.Machine

-- One kernel check at a time: each evaluates a block cipher, and many at once want more threads than a small machine has.
set_option Elab.async false

/-! WellFormed: one ill-formed term for each check (R90, R91, R96). -/

theorem test_wellFormed_class : C8.wellFormed ⟨0x0#4, 0#3, 0#1⟩ = false ∧ C8.wellFormed ⟨0x4#4, 0#3, 0#1⟩ = false ∧
    C8.wellFormed ⟨0xE#4, 0#3, 0#1⟩ = false := by decide
theorem test_wellFormed_msg_mode : C8.wellFormed ⟨0x3#4, 5#3, 0#1⟩ = false ∧ C8.wellFormed ⟨0x3#4, 7#3, 1#1⟩ = false := by decide
theorem test_wellFormed_zero_mode : C8.wellFormed ⟨0x1#4, 1#3, 0#1⟩ = false ∧ C8.wellFormed ⟨0x2#4, 1#3, 0#1⟩ = false ∧
    C8.wellFormed ⟨0xF#4, 4#3, 0#1⟩ = false := by decide
theorem test_wellFormed_dir : C8.wellFormed ⟨0x1#4, 0#3, 1#1⟩ = false ∧ C8.wellFormed ⟨0xF#4, 0#3, 1#1⟩ = false := by decide
theorem test_wellFormed_legal : C8.wellFormed ⟨0x2#4, 0#3, 1#1⟩ = true ∧ C8.wellFormed ⟨0x3#4, 4#3, 1#1⟩ = true := by decide

/-! Decoding, from the `Bits [7:0]` column of R92; table words and illegal bytes. -/

theorem test_decode_expand : decode 0b00010000#8 = .command .expand := by decide
theorem test_decode_encblk : decode 0b00100000#8 = .command .encblk := by decide
theorem test_decode_decblk : decode 0b00100001#8 = .command .decblk := by decide
theorem test_decode_encecb : decode 0b00110000#8 = .command .encecb := by decide
theorem test_decode_dececb : decode 0b00110001#8 = .command .dececb := by decide
theorem test_decode_enccbc : decode 0b00110010#8 = .command .enccbc := by decide
theorem test_decode_deccbc : decode 0b00110011#8 = .command .deccbc := by decide
theorem test_decode_enccfb : decode 0b00110100#8 = .command .enccfb := by decide
theorem test_decode_deccfb : decode 0b00110101#8 = .command .deccfb := by decide
theorem test_decode_encofb : decode 0b00110110#8 = .command .encofb := by decide
theorem test_decode_decofb : decode 0b00110111#8 = .command .decofb := by decide
theorem test_decode_encctr : decode 0b00111000#8 = .command .encctr := by decide
theorem test_decode_decctr : decode 0b00111001#8 = .command .decctr := by decide
theorem test_decode_clear : decode 0b11110000#8 = .command .clear := by decide
theorem test_decode_illegal : decode 0x00#8 = .illegal .illegalClass ∧ decode 0x11#8 = .illegal .nonzeroDir ∧
    decode 0x22#8 = .illegal .nonzeroMode ∧ decode 0x3A#8 = .illegal .illegalMode ∧ decode 0x77#8 = .illegal .illegalClass ∧
    decode 0xF1#8 = .illegal .nonzeroDir := by decide
theorem test_decode_table : decodeTableWord 8 0x30 = some .encecb ∧ decodeTableWord 8 0x11 = none := by decide
theorem test_fetch : step (State.reset.withFetchWord 8 0x10) = .next { State.reset with err := 1#8 } := by rfl

/-! Tables and transforms (V11, V13, V20 to V23, V70, V80). -/

/-- The block of byte `i` at position `i`. -/
def countBlock : Block := Vector.ofFn fun i : Fin 16 => BitVec.ofNat 8 i.val

theorem test_gfMul : gfMul 0x57 0x83 = 0xC1#8 ∧ gfMul 0x57 0x13 = 0xFE#8 ∧ gfMul 0x0E 0x47 = 0x87#8 := by decide
theorem test_subBytes : subBytes countBlock =
    #v[0x63, 0x7c, 0x77, 0x7b, 0xf2, 0x6b, 0x6f, 0xc5, 0x30, 0x01, 0x67, 0x2b, 0xfe, 0xd7, 0xab, 0x76] := by decide +kernel
theorem test_invSubBytes : invSubBytes countBlock =
    #v[0x52, 0x09, 0x6a, 0xd5, 0x30, 0x36, 0xa5, 0x38, 0xbf, 0x40, 0xa3, 0x9e, 0x81, 0xf3, 0xd7, 0xfb] := by decide +kernel
theorem test_shiftRows : shiftRows countBlock = #v[0, 5, 10, 15, 4, 9, 14, 3, 8, 13, 2, 7, 12, 1, 6, 11] := by decide +kernel
theorem test_invShiftRows : invShiftRows countBlock = #v[0, 13, 10, 7, 4, 1, 14, 11, 8, 5, 2, 15, 12, 9, 6, 3] := by decide +kernel
theorem test_mixColumns : mixColumns countBlock = #v[2, 7, 0, 5, 6, 3, 4, 1, 10, 15, 8, 13, 14, 11, 12, 9] := by decide +kernel
theorem test_invMixColumns : invMixColumns countBlock = #v[10, 15, 8, 13, 14, 11, 12, 9, 2, 7, 0, 5, 6, 3, 4, 1] := by decide +kernel
theorem test_ctrInc_wrap : ctrInc (Vector.replicate 16 0xFF#8) = zeroBlock := by decide +kernel
theorem test_ctrInc_carry : ctrInc (#v[0, 0, 0, 0, 0, 0, 0, 0, 0xFF, 0xFF, 0xFF, 0xFF, 0xFF, 0xFF, 0xFF, 0xFF] : Block) =
    #v[0, 0, 0, 0, 0, 0, 0, 1, 0, 0, 0, 0, 0, 0, 0, 0] := by decide +kernel
theorem test_pad : pad [] = List.replicate 16 16#8 ∧
    pad [0x6b#8, 0xc1#8] = [0x6b#8, 0xc1#8] ++ List.replicate 14 14#8 := by decide
theorem test_unpad : unpad (List.replicate 16 16#8) = some [] ∧ unpad (List.replicate 16 0#8) = none ∧ unpad [] = none ∧
    unpad (List.replicate 15 0#8 ++ [17#8]) = none ∧ unpad (List.replicate 14 0#8 ++ [1#8, 2#8]) = none := by decide

/-! The commands. -/

/-- The key `Ka`, the initialization vectors `IVa` and `IVb`, and the first five bytes of `Pa`. -/
def keyA : Bytes := [0x2b, 0x7e, 0x15, 0x16, 0x28, 0xae, 0xd2, 0xa6, 0xab, 0xf7, 0x15, 0x88, 0x09, 0xcf, 0x4f, 0x3c]
def ivB : Block := #v[0xf0, 0xf1, 0xf2, 0xf3, 0xf4, 0xf5, 0xf6, 0xf7, 0xf8, 0xf9, 0xfa, 0xfb, 0xfc, 0xfd, 0xfe, 0xff]
def textA : Bytes := [0x6b, 0xc1, 0xbe, 0xe2, 0x2e]
def blockA : Bytes := [0x6b, 0xc1, 0xbe, 0xe2, 0x2e, 0x40, 0x9f, 0x96, 0xe9, 0x3d, 0x7e, 0x11, 0x73, 0x93, 0x17, 0x2a]

/-- V31: the schedule of `Ka`. -/
def scheduleA : RoundKeys :=
  #v[
    #v[0x2b, 0x7e, 0x15, 0x16, 0x28, 0xae, 0xd2, 0xa6, 0xab, 0xf7, 0x15, 0x88, 0x09, 0xcf, 0x4f, 0x3c],
    #v[0xa0, 0xfa, 0xfe, 0x17, 0x88, 0x54, 0x2c, 0xb1, 0x23, 0xa3, 0x39, 0x39, 0x2a, 0x6c, 0x76, 0x05],
    #v[0xf2, 0xc2, 0x95, 0xf2, 0x7a, 0x96, 0xb9, 0x43, 0x59, 0x35, 0x80, 0x7a, 0x73, 0x59, 0xf6, 0x7f],
    #v[0x3d, 0x80, 0x47, 0x7d, 0x47, 0x16, 0xfe, 0x3e, 0x1e, 0x23, 0x7e, 0x44, 0x6d, 0x7a, 0x88, 0x3b],
    #v[0xef, 0x44, 0xa5, 0x41, 0xa8, 0x52, 0x5b, 0x7f, 0xb6, 0x71, 0x25, 0x3b, 0xdb, 0x0b, 0xad, 0x00],
    #v[0xd4, 0xd1, 0xc6, 0xf8, 0x7c, 0x83, 0x9d, 0x87, 0xca, 0xf2, 0xb8, 0xbc, 0x11, 0xf9, 0x15, 0xbc],
    #v[0x6d, 0x88, 0xa3, 0x7a, 0x11, 0x0b, 0x3e, 0xfd, 0xdb, 0xf9, 0x86, 0x41, 0xca, 0x00, 0x93, 0xfd],
    #v[0x4e, 0x54, 0xf7, 0x0e, 0x5f, 0x5f, 0xc9, 0xf3, 0x84, 0xa6, 0x4f, 0xb2, 0x4e, 0xa6, 0xdc, 0x4f],
    #v[0xea, 0xd2, 0x73, 0x21, 0xb5, 0x8d, 0xba, 0xd2, 0x31, 0x2b, 0xf5, 0x60, 0x7f, 0x8d, 0x29, 0x2f],
    #v[0xac, 0x77, 0x66, 0xf3, 0x19, 0xfa, 0xdc, 0x21, 0x28, 0xd1, 0x29, 0x41, 0x57, 0x5c, 0x00, 0x6e],
    #v[0xd0, 0x14, 0xf9, 0xa8, 0xc9, 0xee, 0x25, 0x89, 0xe1, 0x3f, 0x0c, 0xc8, 0xb6, 0x63, 0x0c, 0xa6],
    zeroBlock, zeroBlock, zeroBlock, zeroBlock]

theorem test_schedule : expandKey 4 10 keyA = scheduleA := by decide +kernel

/-- A state that holds the schedule of `Ka`, an IV and a message. -/
def loaded (iv : Block) (x : Bytes) : State :=
  { State.reset with
    rk := scheduleA, nk := 4#8, nr := 10#8, rkcnt := 11#8, iv := iv, ivlen := 16#8
    din := Memory.writeBytes [] 0 x, len := BitVec.ofNat 32 x.length }

theorem loaded_keyed (iv : Block) (x : Bytes) : (loaded iv x).Keyed :=
  ⟨by rfl, by show (10#8).toNat < 15; decide⟩

/-- A message of at most 16 bytes, of exactly 16 for a raw command and whole blocks where the mode wants them, is ready. -/
theorem loaded_ready {i : Instr} (iv : Block) {x : Bytes} (hx : x.length ≤ 16) (hraw : i.isRaw = true → x.length = 16)
    (hw : i.wholeBlocks = true → x.length % 16 = 0) : (loaded iv x).Ready i := by
  have hl : (loaded iv x).len.toNat = x.length := by
    simp only [loaded, BitVec.toNat_ofNat]
    omega
  have := Config.sixteen_le_maxLen
  refine ⟨fun h => hl.trans (hraw h), fun _ => by omega, fun _ => rfl, fun h => ?_⟩
  rw [hl]
  exact hw h

/-- `exec i s` answers a next state with this code, this length and these output bytes. -/
def Gives (i : Instr) (s : State) (err : Byte) (out : Bytes) : Prop :=
  ∃ t, exec i s = .next t ∧ t.err = err ∧ t.olen.toNat = out.length ∧ t.dout.readBytes 0 out.length = out

/-- V30 (first and last round key), V34 (AES-192 and AES-256, zero keys), V35. -/
theorem test_expand : ∃ t, exec .expand { State.reset with keylen := 16#8 } = .next t ∧
    t.nk = 4#8 ∧ t.nr = 10#8 ∧ t.rkcnt = 11#8 ∧ t.err = 0#8 ∧ t.rk[11] = zeroBlock ∧
    t.rk[10] = #v[0xb4, 0xef, 0x5b, 0xcb, 0x3e, 0x92, 0xe2, 0x11, 0x23, 0xe9, 0x51, 0xcf, 0x6f, 0x8f, 0x18, 0x8e] :=
  ⟨_, rfl, by decide +kernel⟩
theorem test_expand_sizes :
    (expandKey 6 12 (List.replicate 24 0x00#8))[12] =
      #v[0x43, 0x2a, 0xc8, 0x86, 0xd8, 0x34, 0xc0, 0xb6, 0xd2, 0xc7, 0xdf, 0x11, 0x98, 0x4c, 0x59, 0x70] ∧
    (expandKey 8 14 (List.replicate 32 0x00#8))[14] =
      #v[0x10, 0xf8, 0x0a, 0x17, 0x53, 0xbf, 0x72, 0x9c, 0x45, 0xc9, 0x79, 0xe7, 0xcb, 0x70, 0x63, 0x85] := by decide +kernel

/-- V36 and section 2.4: a block under `Ka`. -/
def cipherA : Bytes := [0x3a, 0xd7, 0x7b, 0xb4, 0x0d, 0x7a, 0x36, 0x60, 0xa8, 0x9e, 0xca, 0xf3, 0x24, 0x66, 0xef, 0x97]

theorem test_encblk : Gives .encblk (loaded zeroBlock blockA) 0#8 cipherA :=
  ⟨_, exec_ready rfl (loaded_keyed ..) (loaded_ready _ (by decide) (by decide) (by decide)), by decide +kernel⟩
theorem test_decblk : Gives .decblk (loaded zeroBlock cipherA) 0#8 blockA :=
  ⟨_, exec_ready rfl (loaded_keyed ..) (loaded_ready _ (by decide) (by decide) (by decide)), by decide +kernel⟩
theorem test_encblk_length : exec .encblk (loaded zeroBlock textA) = .next { loaded zeroBlock textA with err := 3#8 } := by
  rw [exec_data rfl, runData_of_error (e := .invalidBlockSize) (by decide)]; rfl

/-- V60, rows 5 (message) and 5 read right to left. -/
def ecbA : Bytes := [0x79, 0x0e, 0x59, 0x0d, 0xb5, 0xea, 0x2e, 0xf8, 0x41, 0x18, 0x6c, 0x22, 0x24, 0xf0, 0x92, 0xd7]

theorem test_encecb : Gives .encecb (loaded zeroBlock textA) 0#8 ecbA :=
  ⟨_, exec_ready rfl (loaded_keyed ..) (loaded_ready _ (by decide) (by decide) (by decide)), by decide +kernel⟩
theorem test_dececb : Gives .dececb (loaded zeroBlock ecbA) 0#8 textA :=
  ⟨_, exec_ready rfl (loaded_keyed ..) (loaded_ready _ (by decide) (by decide) (by decide)), by decide +kernel⟩

/-- V79: the padding of this block is invalid. -/
theorem test_dececb_padding : Gives .dececb (loaded zeroBlock (List.replicate 16 0x00#8)) 4#8 [] :=
  ⟨_, exec_ready rfl (loaded_keyed ..) (loaded_ready _ (by decide) (by decide) (by decide)), by decide +kernel⟩

/-- V61. -/
def cbcA : Bytes := [0xfc, 0x4e, 0x79, 0xe8, 0x0d, 0x88, 0x87, 0x71, 0x6f, 0xa2, 0xf8, 0x58, 0x09, 0x91, 0xcd, 0x24]

theorem test_enccbc : Gives .enccbc (loaded countBlock textA) 0#8 cbcA :=
  ⟨_, exec_ready rfl (loaded_keyed ..) (loaded_ready _ (by decide) (by decide) (by decide)), by decide +kernel⟩
theorem test_enccbc_chain : Gives .enccbc (loaded countBlock blockA) 0#8
    [0x76, 0x49, 0xab, 0xac, 0x81, 0x19, 0xb2, 0x46, 0xce, 0xe9, 0x8e, 0x9b, 0x12, 0xe9, 0x19, 0x7d,
     0x89, 0x64, 0xe0, 0xb1, 0x49, 0xc1, 0x0b, 0x7b, 0x68, 0x2e, 0x6e, 0x39, 0xaa, 0xeb, 0x73, 0x1c] :=
  ⟨_, exec_ready rfl (loaded_keyed ..) (loaded_ready _ (by decide) (by decide) (by decide)), by decide +kernel⟩
theorem test_deccbc : Gives .deccbc (loaded countBlock cbcA) 0#8 textA :=
  ⟨_, exec_ready rfl (loaded_keyed ..) (loaded_ready _ (by decide) (by decide) (by decide)), by decide +kernel⟩

/-- V62, V63: the first segment of CFB and OFB is the same. -/
def feedbackA : Bytes := [0x3b, 0x3f, 0xd9, 0x2e, 0xb7]

theorem test_enccfb : Gives .enccfb (loaded countBlock textA) 0#8 feedbackA :=
  ⟨_, exec_ready rfl (loaded_keyed ..) (loaded_ready _ (by decide) (by decide) (by decide)), by decide +kernel⟩
theorem test_deccfb : Gives .deccfb (loaded countBlock feedbackA) 0#8 textA :=
  ⟨_, exec_ready rfl (loaded_keyed ..) (loaded_ready _ (by decide) (by decide) (by decide)), by decide +kernel⟩
theorem test_encofb : Gives .encofb (loaded countBlock textA) 0#8 feedbackA :=
  ⟨_, exec_ready rfl (loaded_keyed ..) (loaded_ready _ (by decide) (by decide) (by decide)), by decide +kernel⟩
theorem test_decofb : Gives .decofb (loaded countBlock feedbackA) 0#8 textA :=
  ⟨_, exec_ready rfl (loaded_keyed ..) (loaded_ready _ (by decide) (by decide) (by decide)), by decide +kernel⟩

/-- V64. -/
theorem test_encctr : Gives .encctr (loaded ivB textA) 0#8 [0x87, 0x4d, 0x61, 0x91, 0xb6] :=
  ⟨_, exec_ready rfl (loaded_keyed ..) (loaded_ready _ (by decide) (by decide) (by decide)), by decide +kernel⟩
theorem test_decctr : Gives .decctr (loaded ivB [0x87, 0x4d, 0x61, 0x91, 0xb6]) 0#8 textA :=
  ⟨_, exec_ready rfl (loaded_keyed ..) (loaded_ready _ (by decide) (by decide) (by decide)), by decide +kernel⟩

/-- The second segments of the rows of 20 bytes in V62, V63, V64, from the functions of the loops (LEN above 16 is within MAXLEN
only for some cores). -/
theorem test_second_segment :
    (cfbEncLoop (encryptBlock scheduleA 10) zeroBlock countBlock (segments (blockA ++ [0xae, 0x2d, 0x8a, 0x57]))).out.drop 16 =
      [0xc8, 0xa6, 0x45, 0x37] ∧
    (ofbLoop (encryptBlock scheduleA 10) zeroBlock countBlock (segments (blockA ++ [0xae, 0x2d, 0x8a, 0x57]))).out.drop 16 =
      [0x77, 0x89, 0x50, 0x8d] ∧
    (ctrLoop (encryptBlock scheduleA 10) zeroBlock ivB (segments (blockA ++ [0xae, 0x2d, 0x8a, 0x57]))).out.drop 16 =
      [0x98, 0x06, 0xf6, 0x6b] := by decide +kernel

theorem test_clear : exec .clear (loaded ivB textA) = .next State.reset := by rfl

/-- V86, row 1: no schedule is reported before the other errors. -/
theorem test_deccbc_priority : exec .deccbc { State.reset with ivlen := 5#8, len := 5000#32 } =
    .next { State.reset with ivlen := 5#8, len := 5000#32, err := 5#8 } := by
  rw [exec_data rfl, runData_of_error (e := .invalidKeySchedule) (by decide)]; rfl

/-- V92: the bytes of `LEN`. -/
theorem test_len : portWrite 0#2 0x04#32 0x05#8 { State.reset with len := 0x1010#32 } = { State.reset with len := 0x1005#32 } ∧
    regRead 0x05 { State.reset with len := 0x1010#32 } = 0x10#8 := by decide
/-- V90, V93: the zero core reads 0x00, and address `16k + i` of `RKMEM` is `RK[k][i]`. -/
theorem test_rkmem : rkRead 17 { State.reset with rk := scheduleA } = 0xfa#8 ∧ rkRead 240 State.reset = 0x00#8 := by
  decide +kernel
/-- R98: the written form of a transaction. -/
theorem test_scriptLine : (command .encctr).scriptLine = some "W 0 00000000 38".toList := by decide +kernel

/-! Witnesses: for every obligation with hypotheses a state and operands that meet all of them together, for each clause one,
at the ends of its range. -/

/-- The reset state with one pending event. -/
def pending (e : HostEvent) : State :=
  { State.reset with host := [e] }

theorem maxLen_ge : 16 ≤ Config.maxLen := Config.sixteen_le_maxLen
theorem maxLen_lt : Config.maxLen + 16 < 2 ^ 32 := Config.maxLen_add_sixteen_lt

theorem witness_DecodeEncodeAgree : decode 0x38#8 = .command .encctr := by decide

/-- The ends of the five ranges of illegal bytes. -/
theorem witness_IllegalByteOnlySetsErr : (0x00#8).toNat ≤ 0x0F ∧ (0x0F#8).toNat ≤ 0x0F ∧
    0x11 ≤ (0x11#8).toNat ∧ (0x1F#8).toNat ≤ 0x1F ∧ 0x22 ≤ (0x22#8).toNat ∧ (0x2F#8).toNat ≤ 0x2F ∧
    0x3A ≤ (0x3A#8).toNat ∧ (0xEF#8).toNat ≤ 0xEF ∧ 0xF1 ≤ (0xF1#8).toNat ∧ 0xF1 ≤ (0xFF#8).toNat ∧
    ∀ v : Byte, (pending (.write 0#2 0#32 v)).host = .write 0#2 0#32 v :: [] :=
  ⟨by decide, by decide, by decide, by decide, by decide, by decide, by decide, by decide, by decide, by decide, fun _ => rfl⟩

theorem witness_StepRunsDecodedCommand : (pending (.write 0#2 0#32 0x10#8)).host = .write 0#2 0#32 0x10#8 :: [] ∧
    decode 0x10#8 = .command .expand ∧ Instr.expand.wellFormed = true := ⟨rfl, by decide, by decide⟩

theorem witness_StepReadChangesNoState : (pending (.read 3#2 239#32)).host = .read 3#2 239#32 :: [] := rfl

theorem witness_IdleStepChangesNothing : State.reset.host = [] := rfl

theorem witness_ResetEventResetsTheCore : { loaded ivB textA with host := [.reset] }.host = .reset :: [] := rfl

theorem witness_CommandsInResetState : Instr.encblk.isData = true ∧ Instr.decctr.isData = true ∧
    (∀ i, encode i ≠ 0x00#8) ∧ (∀ i, encode i ≠ 0xFF#8) ∧
    (¬ (0#2 = 0#2 ∧ 0x40 ≤ (0x3F#32).toNat ∧ (0x3F#32).toNat ≤ 0x43)) ∧
    (¬ (0#2 = 0#2 ∧ 0x40 ≤ (0x44#32).toNat ∧ (0x44#32).toNat ≤ 0x43)) :=
  ⟨rfl, rfl, fun i => by cases i <;> decide, fun i => by cases i <;> decide, by decide, by decide⟩

/-- The last byte of each buffer. -/
theorem witness_PortReadsTheRegisterMap :
    (BitVec.ofNat 32 (Config.maxLen - 1)).toNat < Config.maxLen ∧
    (BitVec.ofNat 32 (Config.maxLen + 15)).toNat < Config.maxLen + 16 := by
  have := maxLen_ge
  rw [Config.toNat_ofNat (by omega), Config.toNat_ofNat (by omega)]
  omega

theorem witness_WrittenByteReadsBack : State.reset.din.wf ∧
    (∀ a ∈ [0x02, 0x07, 0x10, 0x3F], (0x02 ≤ (BitVec.ofNat 32 a).toNat ∧ (BitVec.ofNat 32 a).toNat ≤ 0x07) ∨
      (0x10 ≤ (BitVec.ofNat 32 a).toNat ∧ (BitVec.ofNat 32 a).toNat ≤ 0x3F)) ∧
    (0#32).toNat < Config.maxLen ∧ (BitVec.ofNat 32 (Config.maxLen - 1)).toNat < Config.maxLen ∧
    (pending (.write 1#2 0#32 0xAA#8)).host = .write 1#2 0#32 0xAA#8 :: [] := by
  have := maxLen_ge
  refine ⟨⟨by decide, by decide⟩, by decide, by simpa using (by omega : 0 < Config.maxLen), ?_, rfl⟩
  rw [Config.toNat_ofNat (by omega)]
  omega

theorem witness_ReservedAddressesInert :
    (∀ a ∈ [0x01, 0x08, 0x0F, 0x40, 0x43, 0x44, 0xFFFFFFFF], (pending (.write 0#2 (BitVec.ofNat 32 a) 0xAA#8)).host =
        .write 0#2 (BitVec.ofNat 32 a) 0xAA#8 :: [] ∧
      ((BitVec.ofNat 32 a).toNat = 0x01 ∨ (0x08 ≤ (BitVec.ofNat 32 a).toNat ∧ (BitVec.ofNat 32 a).toNat ≤ 0x0F) ∨
        0x40 ≤ (BitVec.ofNat 32 a).toNat)) ∧
    ∀ a ∈ [0x00, 0x0F, 0x44, 0xFFFFFFFF], (pending (.read 0#2 (BitVec.ofNat 32 a))).host = .read 0#2 (BitVec.ofNat 32 a) :: [] ∧
      ((BitVec.ofNat 32 a).toNat = 0x00 ∨ (BitVec.ofNat 32 a).toNat = 0x0F ∨ 0x44 ≤ (BitVec.ofNat 32 a).toNat) :=
  ⟨fun a h => ⟨rfl, by revert a; decide⟩, fun a h => ⟨rfl, by revert a; decide⟩⟩

theorem witness_OutOfRangeAddressesInert :
    0xFF < (0x100#32).toNat ∧ Config.maxLen ≤ (BitVec.ofNat 32 Config.maxLen).toNat ∧
    Config.maxLen + 16 ≤ (BitVec.ofNat 32 (Config.maxLen + 16)).toNat ∧ 240 ≤ (240#32).toNat ∧
    (pending (.write 2#2 0#32 0xFF#8)).host = .write 2#2 0#32 0xFF#8 :: [] ∧
    (pending (.read 3#2 240#32)).host = .read 3#2 240#32 :: [] := by
  refine ⟨by decide, ?_, ?_, by decide, rfl, rfl⟩ <;> rw [Config.toNat_ofNat (by omega)]

theorem witness_FieldMultiplierLaws : (0x53#8 : Byte) ≠ 0x00#8 ∧ gfMul 0x53 0xCA = 0x01#8 := by decide

theorem witness_MixColumnsMatrices : countBlock[4 * 3] = 12#8 ∧ countBlock[4 * 3 + 1] = 13#8 ∧ countBlock[4 * 3 + 2] = 14#8 ∧
    countBlock[4 * 3 + 3] = 15#8 := by decide

theorem witness_ScheduleFollowsRecurrence : keyA.length = 4 * 4 ∧ (List.replicate 24 0x00#8).length = 4 * 6 ∧
    (List.replicate 32 0x00#8).length = 4 * 8 := by decide

theorem witness_ExpandCommand : { State.reset with keylen := 16#8 }.keylen.toNat = 16 ∧
    { State.reset with keylen := 24#8 }.keylen.toNat = 24 ∧ { State.reset with keylen := 32#8 }.keylen.toNat = 32 ∧
    { State.reset with keylen := 33#8 }.keylen.toNat = 33 ∧ ¬ (33 = 16 ∨ 33 = 24 ∨ 33 = 32) := by decide

theorem witness_EncryptBlockRounds : 1 ≤ 9 ∧ 9 < (10 : Fin 15).val := by decide

theorem witness_RawBlockCommands :
    (State.reset.rkcnt.toNat ≠ State.reset.nr.toNat + 1) ∧
    ((loaded zeroBlock textA).rkcnt.toNat = (loaded zeroBlock textA).nr.toNat + 1 ∧ (loaded zeroBlock textA).len.toNat ≠ 16) ∧
    ((loaded zeroBlock blockA).Keyed ∧ (loaded zeroBlock blockA).len.toNat = 16) :=
  ⟨by decide, ⟨rfl, by decide⟩, loaded_keyed .., by decide⟩

/-- One state for each of the four checks, in their order. -/
theorem witness_ModeCommandChecks : Instr.deccbc.isMode = true ∧
    (State.reset.rkcnt.toNat ≠ State.reset.nr.toNat + 1) ∧
    (∃ s : State, s.rkcnt.toNat = s.nr.toNat + 1 ∧ Instr.deccbc.needsIv = true ∧ s.ivlen.toNat ≠ 16) ∧
    (∃ s : State, s.rkcnt.toNat = s.nr.toNat + 1 ∧ (Instr.deccbc.needsIv = true → s.ivlen.toNat = 16) ∧
      Config.maxLen < s.len.toNat) ∧
    ∃ s : State, s.rkcnt.toNat = s.nr.toNat + 1 ∧ (Instr.deccbc.needsIv = true → s.ivlen.toNat = 16) ∧
      s.len.toNat ≤ Config.maxLen ∧ Instr.deccbc.wholeBlocks = true ∧ s.len.toNat % 16 ≠ 0 := by
  refine ⟨rfl, by decide, ⟨{ loaded ivB textA with ivlen := 15#8 }, rfl, rfl, by decide⟩,
    ⟨{ loaded ivB textA with len := BitVec.ofNat 32 (Config.maxLen + 1) }, rfl, fun _ => rfl, ?_⟩,
    ⟨loaded ivB textA, rfl, fun _ => rfl, ?_, rfl, by decide⟩⟩
  · show _ < (BitVec.ofNat 32 (Config.maxLen + 1)).toNat
    rw [Config.toNat_ofNat (by omega)]
    omega
  · have := maxLen_ge
    show 5 ≤ _
    omega

theorem witness_PaddingRoundTrip : (List.replicate 16 16#8).length % 16 = 0 := by decide

/-- A keyed state with the longest message, for the statements that admit every length up to MAXLEN. -/
theorem witness_longest : ∃ s : State, s.Keyed ∧ s.ivlen.toNat = 16 ∧ s.len.toNat = Config.maxLen :=
  ⟨{ loaded ivB textA with len := BitVec.ofNat 32 Config.maxLen }, ⟨rfl, by show (10#8).toNat < 15; decide⟩, rfl,
    Config.toNat_ofNat (by omega)⟩

/-- The shortest message: EncryptEcb, EncryptCbc, CfbCommands, OfbCommands, CtrCommands. -/
theorem witness_EncryptCommands : (loaded ivB []).Keyed ∧ (loaded ivB []).ivlen.toNat = 16 ∧
    (loaded ivB []).len.toNat ≤ Config.maxLen ∧ 16 = (loaded ivB []).len.toNat + 16 - (loaded ivB []).len.toNat % 16 :=
  ⟨loaded_keyed .., rfl, Nat.zero_le _, by decide⟩

/-- The keystreams that OfbCommands and CtrCommands speak of exist. -/
theorem witness_keystreams (s : State) :
    (∃ k : Nat → Block, k 0 = s.encrypts s.iv ∧ ∀ j, k (j + 1) = s.encrypts (k j)) ∧
    ∃ k : Nat → Block, ∀ j, k j = s.encrypts (blockOfValue ((blockValue s.iv + j) % 2 ^ 128)) :=
  ⟨⟨fun j => Nat.rec (s.encrypts s.iv) (fun _ b => s.encrypts b) j, rfl, fun _ => rfl⟩, ⟨_, fun _ => rfl⟩⟩

/-- DecryptEcb and DecryptCbc, with valid padding and with none (an empty message). -/
theorem witness_DecryptCommands : (loaded zeroBlock ecbA).Keyed ∧ (loaded zeroBlock ecbA).ivlen.toNat = 16 ∧
    (loaded zeroBlock ecbA).len.toNat ≤ Config.maxLen ∧ (loaded zeroBlock ecbA).len.toNat % 16 = 0 ∧
    PaddingValid (byteAt fun _ => Vector.replicate 16 16#8) (loaded zeroBlock ecbA).len.toNat ∧
    ¬ PaddingValid (byteAt fun _ => zeroBlock) 0 := by
  refine ⟨loaded_keyed .., rfl, maxLen_ge, by decide, ?_, fun h => absurd h.1 (by decide)⟩
  refine ⟨by decide, by decide, by decide, fun a h1 h2 => ?_⟩
  simp [byteAt]

/-- The padding of the block of `ecbA` is the one of a message of five bytes. -/
theorem witness_DecryptEcb_block : (loaded zeroBlock ecbA).decrypts (readBlock (loaded zeroBlock ecbA).din 0) =
    #v[0x6b, 0xc1, 0xbe, 0xe2, 0x2e, 11, 11, 11, 11, 11, 11, 11, 11, 11, 11, 11] := by decide +kernel

/-- PaddedModesRoundTrip, StreamModesRoundTrip, CtrAndOfbAreInvolutions: the second state is the first with its output copied to
its input. -/
theorem witness_RoundTrips (i : Instr) (hd : i.isData = true) (hw : i.wholeBlocks = false) (hr : i.isRaw = false) :
    ∃ s t u : State, s.Keyed ∧ s.ivlen.toNat = 16 ∧ s.len.toNat + 16 ≤ Config.maxLen ∧ exec i s = .next t ∧
      u.rk = t.rk ∧ u.nr = t.nr ∧ u.rkcnt = t.rkcnt ∧ u.iv = t.iv ∧ u.ivlen = t.ivlen ∧ u.len = t.olen ∧
      ∀ a, a < t.olen.toNat → u.din.read a = t.dout.read a :=
  ⟨loaded ivB [], _, { dataBody i (loaded ivB []).lastRound (clearOutput (loaded ivB [])) with
      din := (dataBody i (loaded ivB []).lastRound (clearOutput (loaded ivB []))).dout
      len := (dataBody i (loaded ivB []).lastRound (clearOutput (loaded ivB []))).olen },
    loaded_keyed .., rfl, maxLen_ge, exec_ready hd (loaded_keyed ..) (loaded_ready _ (by decide) (by simp [hr]) (by simp [hw])),
    rfl, rfl, rfl, rfl, rfl, rfl, fun _ _ => rfl⟩

theorem witness_ClearErasesEverything : ¬ (1#2 = 0#2 ∧ 0x40 ≤ (0x40#32).toNat ∧ (0x40#32).toNat ≤ 0x43) := by decide

theorem witness_DataCommandFrame : Instr.encecb.isData = true ∧ ∃ t, exec .encecb (loaded zeroBlock textA) = .next t :=
  ⟨rfl, _, exec_ready rfl (loaded_keyed ..) (loaded_ready _ (by decide) (by decide) (by decide))⟩

theorem witness_ExpandFrame : ∃ t, exec .expand State.reset = .next t := ⟨_, rfl⟩

theorem witness_FailedDataCommand : Instr.decctr.isData = true ∧
    ∃ t, exec .decctr State.reset = .next t ∧ t.err ≠ 0#8 ∧ t.err ≠ 4#8 := by
  refine ⟨rfl, { State.reset with err := 5#8 }, ?_, by decide, by decide⟩
  rw [exec_data rfl, runData_of_error (e := .invalidKeySchedule) (by decide)]; rfl

theorem witness_ErrorCodesByCommand : ∃ t, runCommand 0xFF#8 State.reset = .next t ∧ t.err = 7#8 := ⟨_, rfl, rfl⟩

/-- A legal state with an `EXPAND` pending: StepKeepsInvariant, LegalStateNeverStops, ScheduleLifeCycle, OnlyCommandsWriteErr. -/
theorem witness_invariants : (pending (.write 0#2 0#32 0x10#8)).Inv ∧
    (pending (.write 0#2 0#32 0x10#8)).host = .write 0#2 0#32 0x10#8 :: [] ∧
    ∃ t, step (pending (.write 0#2 0#32 0x10#8)) = .next t ∧ t.err ≠ (pending (.write 0#2 0#32 0x10#8)).err :=
  ⟨⟨.inl ⟨rfl, rfl, rfl⟩, ⟨fun _ => rfl, fun h => absurd rfl h⟩, ⟨Nat.zero_le _, fun _ _ => rfl⟩, rfl,
    ⟨.nil, fun _ h => (List.not_mem_nil h).elim⟩, fun _ h => (List.not_mem_nil h).elim,
    ⟨.nil, fun _ h => (List.not_mem_nil h).elim⟩, fun _ h => (List.not_mem_nil h).elim⟩, rfl, _, rfl, by decide⟩

/-- A keyed legal state: `NK`, `NR`, `RKCNT` of an AES-128 schedule, and the schedule is that of the key `Ka`. -/
theorem witness_keyed_invariant : (loaded zeroBlock []).DescriptorsLegal ∧ (loaded zeroBlock []).ScheduleLegal := by
  refine ⟨.inr (.inl ⟨rfl, rfl, rfl⟩), fun h => absurd h (by decide), fun _ => ⟨⟨keyA, rfl, ?_⟩, ?_⟩⟩
  · show ∀ k : Fin 15, k.val ≤ 10 → scheduleA[k] = roundKey (scheduleWords 4 10 keyA) k.val
    rw [← test_schedule]
    intro k hk
    simp [expandKey, hk]
  · show ∀ k : Fin 15, 10 < k.val → scheduleA[k] = zeroBlock
    decide +kernel

/-- Two events after which the schedule is as before, and a reset: the other clauses of ScheduleLifeCycle. -/
theorem witness_ScheduleLifeCycle : (HostEvent.write 0#2 0#32 0x30#8 ≠ .write 0#2 0#32 0x10#8 ∧
    HostEvent.write 0#2 0#32 0x30#8 ≠ .write 0#2 0#32 0xF0#8 ∧ HostEvent.write 0#2 0#32 0x30#8 ≠ .reset) ∧
    (pending .reset).host = .reset :: [] ∧ ∃ t, step (pending .reset) = .next t := ⟨by decide, rfl, _, rfl⟩

/-- A state that no run reaches, in which the stop of OnlyAbsentRoundKeyStops happens. -/
theorem witness_OnlyAbsentRoundKeyStops : Instr.encecb.isData = true ∧ ∃ s : State, s.rkcnt.toNat = s.nr.toNat + 1 ∧
    15 ≤ s.nr.toNat ∧ s.Ready .encecb :=
  ⟨rfl, { State.reset with nr := 15#8, rkcnt := 16#8 }, by decide, by decide, fun h => absurd h (by decide), fun _ => Nat.zero_le _,
    fun h => absurd h (by decide), fun h => absurd h (by decide)⟩

theorem witness_DataCommandsDoNotReadKey : Instr.encblk.isData = true := rfl

/-- A buffer that differs above `LEN` only. -/
theorem witness_BytesAboveLenAreNotRead : Instr.encctr.isData = true ∧
    ((loaded ivB textA).din.write 5 0xAA#8).read 5 ≠ (loaded ivB textA).din.read 5 ∧
    ∀ a, a < (loaded ivB textA).len.toNat → ((loaded ivB textA).din.write 5 0xAA#8).read a = (loaded ivB textA).din.read a := by
  refine ⟨rfl, by decide, ?_⟩
  show ∀ a, a < 5 → _
  decide

theorem witness_SetDataStoresMessage : State.reset.din.wf ∧ ([] : Bytes).length < 2 ^ 32 ∧ blockA.length < 2 ^ 32 :=
  ⟨⟨.nil, fun _ h => (List.not_mem_nil h).elim⟩, by decide, by decide⟩

/-- OperationsWithoutAKey, with a schedule held and with none. -/
theorem witness_OperationsWithoutAKey : (loaded zeroBlock []).din.wf ∧ blockA.length = 16 ∧ (loaded zeroBlock []).Keyed ∧
    State.reset.din.wf ∧ State.reset.rkcnt.toNat ≠ State.reset.nr.toNat + 1 :=
  ⟨⟨.nil, fun _ h => (List.not_mem_nil h).elim⟩, rfl, loaded_keyed .., ⟨.nil, fun _ h => (List.not_mem_nil h).elim⟩, by decide⟩

/-- OperationDerivesItsSchedule: keys of 16 and 32 bytes, and one whose length has the low byte of a legal one. -/
theorem witness_OperationDerivesItsSchedule : keyA.length = 16 ∧ (List.replicate 32 0x00#8).length = 32 ∧
    ¬ ((List.replicate 272 0x00#8).length = 16 ∨ (List.replicate 272 0x00#8).length = 24 ∨
      (List.replicate 272 0x00#8).length = 32) := by
  refine ⟨rfl, List.length_replicate, ?_⟩
  rw [List.length_replicate]
  decide

/-- R100: `SecureErase` of everything. -/
theorem test_secureErase : secureErase (loaded ivB textA) = .next State.reset := by rfl

/-- R100, R92: the commands of `Encrypt_M` and `Decrypt_M`. -/
theorem test_modeCommands : [IvMode.cbc, .cfb, .ofb, .ctr].map (fun m => encode (encCommand m)) = [0x32#8, 0x34#8, 0x36#8, 0x38#8] ∧
    [IvMode.cbc, .cfb, .ofb, .ctr].map (fun m => encode (decCommand m)) = [0x33#8, 0x35#8, 0x37#8, 0x39#8] := by decide

end Sys2Proof.Machine.Test
end

section
/-! PROOF. The state (10_state.md): the reset state, what the commands read and leave unread, which events write `ERR`, the reserved
addresses, the hidden registers, and the invariant of R39 at every step. -/

namespace Sys2Proof.Machine

/-! What an event of the host can do. -/

/-- With an event pending a step does that event on the state without it. -/
theorem step_of_host {s : State} {e : HostEvent} {rest : List HostEvent} (h : s.host = e :: rest) :
    step s = hostEvent e { s with host := rest } := by
  simp only [step, h]

/-- With none pending a step changes nothing. -/
theorem step_of_host_nil {s : State} (h : s.host = []) : step s = .next s := by
  simp only [step, h]

/-- All that a write to `REG` can do: it replaces operands. -/
theorem regWrite_shape (a : Nat) (data : Byte) (s : State) : ∃ key keylen iv ivlen len,
    regWrite a data s = { s with key := key, keylen := keylen, iv := iv, ivlen := ivlen, len := len } := by
  unfold regWrite
  repeat' split
  all_goals exact ⟨_, _, _, _, _, rfl⟩

/-- All that a write other than to `CMD` can do: it replaces operands, or writes a byte of `DIN` in range. -/
theorem portWrite_shape (sel : BitVec 2) (addr : BitVec 32) (data : Byte) (s : State) :
    (∃ key keylen iv ivlen len,
      portWrite sel addr data s = { s with key := key, keylen := keylen, iv := iv, ivlen := ivlen, len := len }) ∨
    (∃ a, a < Config.maxLen ∧ portWrite sel addr data s = { s with din := s.din.write a data }) := by
  unfold portWrite
  split
  · exact .inl (regWrite_shape ..)
  · split
    · unfold dinWrite
      split
      · exact .inr ⟨_, ‹_›, rfl⟩
      · exact .inl ⟨_, _, _, _, _, rfl⟩
    · exact .inl ⟨_, _, _, _, _, rfl⟩

theorem hostWrite_cmd (data : Byte) (s : State) : hostWrite 0#2 0#32 data s = runCommand data s := rfl

theorem hostWrite_of_not_cmd {sel : BitVec 2} {addr : BitVec 32} (h : ¬ (sel = 0#2 ∧ addr = 0#32)) (data : Byte) (s : State) :
    hostWrite sel addr data s = .next (portWrite sel addr data s) :=
  if_neg h

/-- `CLEAR` is the reset of the core (R230, R271). -/
theorem exec_clear (s : State) : exec .clear s = .next (zeroCore s) := rfl

/-! The invariant of R39: each operation keeps it. -/

theorem ErrorKind.code_legal (e : ErrorKind) : e.code.extractLsb' 3 5 = 0#5 := by
  cases e <;> rfl

theorem errLegal_of_zero {s : State} (h : s.err = 0x00#8) : s.ErrLegal := by
  rw [State.ErrLegal, h]
  rfl

/-- With no schedule held and every round key zero there is no key to ask for (R39 item 2). -/
theorem scheduleLegal_of_zero {s : State} (hrk : s.rk = zeroRoundKeys) (hcnt : s.rkcnt = 0#8) : s.ScheduleLegal :=
  ⟨fun _ => hrk, fun h => absurd hcnt h⟩

/-- The invariant holds where the core is zeroed. -/
theorem zeroCore_inv (s : State) : (zeroCore s).Inv := by
  refine ⟨.inl ⟨rfl, rfl, rfl⟩, scheduleLegal_of_zero rfl rfl, ⟨Nat.zero_le _, fun _ _ => rfl⟩, errLegal_of_zero rfl, ?_⟩
  exact ⟨Memory.wf_nil, Memory.below_nil _, Memory.wf_nil, Memory.below_nil _⟩

/-- An error keeps the invariant. -/
theorem raise_keeps_inv {s : State} (h : s.Inv) (e : ErrorKind) : (raise e s).Inv := by
  obtain ⟨hd, hs, ho, -, hb⟩ := h
  exact ⟨hd, hs, ho, e.code_legal, hb⟩

/-- An output of at most `MAXLEN + 16` bytes keeps the invariant, with any code in `ERR` (R35). -/
theorem setOutput_keeps_inv {s : State} (h : s.Inv) (st cv : Block) {out : Bytes} {code : Byte}
    (hout : out.length ≤ Config.maxLen + 16) (hcode : code.extractLsb' 3 5 = 0#5) :
    State.Inv { s with st := st, cv := cv, dout := Memory.writeBytes [] 0 out, olen := BitVec.ofNat 32 out.length, err := code } := by
  obtain ⟨hd, hs, -, -, hwf, hbelow, -, -⟩ := h
  have holen : (BitVec.ofNat 32 out.length).toNat = out.length := Config.toNat_ofNat hout
  refine ⟨hd, hs, ⟨?_, fun i hi => ?_⟩, hcode, hwf, hbelow, Memory.wf_writeBytes Memory.wf_nil 0 out, ?_⟩
  · exact holen.trans_le hout
  · exact read_above out i (holen.symm.trans_le hi)
  · exact Memory.below_writeBytes (Memory.below_nil _) (by omega)

/-- A host write other than to `CMD` keeps the invariant. -/
theorem portWrite_keeps_inv {s : State} (h : s.Inv) (sel : BitVec 2) (addr : BitVec 32) (data : Byte) :
    (portWrite sel addr data s).Inv := by
  rcases portWrite_shape sel addr data s with ⟨key, keylen, iv, ivlen, len, hw⟩ | ⟨a, ha, hw⟩
  · rw [hw]; exact h
  · rw [hw]
    obtain ⟨hd, hs, ho, he, hwf, hbelow, hdout⟩ := h
    exact ⟨hd, hs, ho, he, Memory.wf_write hwf a data, Memory.below_write hbelow ha data, hdout⟩

/-- The three key sizes (R153). -/
theorem params_eq_some {n nk nr : Nat} (h : params n = some (nk, nr)) :
    n = 4 * nk ∧ nr = nk + 6 ∧ (nk = 4 ∨ nk = 6 ∨ nk = 8) := by
  unfold params at h
  split at h
  · simp only [Option.some.injEq, Prod.mk.injEq] at h
    omega
  · cases h

/-- The schedule of a key of `4 NK` bytes, with its descriptors, keeps the invariant (R157). -/
theorem setSchedule_keeps_inv {s : State} (h : s.Inv) {nk : Nat} (hnk : nk = 4 ∨ nk = 6 ∨ nk = 8) {key : Bytes}
    (hkey : key.length = 4 * nk) :
    (finish (setSchedule (expandKey nk (nk + 6) key) (BitVec.ofNat 8 nk) (BitVec.ofNat 8 (nk + 6))
      (BitVec.ofNat 8 (nk + 6 + 1)) s)).Inv := by
  obtain ⟨-, -, ho, -, hb⟩ := h
  have hnk8 : (BitVec.ofNat 8 nk).toNat = nk := by simp; omega
  have hnr8 : (BitVec.ofNat 8 (nk + 6)).toNat = nk + 6 := by simp; omega
  refine ⟨?_, ⟨fun h0 => ?_, fun _ => ⟨⟨key, ?_, fun k hk => ?_⟩, fun k hk => ?_⟩⟩, ho, errLegal_of_zero rfl, hb⟩
  · rcases hnk with rfl | rfl | rfl
    · exact .inr (.inl ⟨rfl, rfl, rfl⟩)
    · exact .inr (.inr (.inl ⟨rfl, rfl, rfl⟩))
    · exact .inr (.inr (.inr ⟨rfl, rfl, rfl⟩))
  · have hcnt : (BitVec.ofNat 8 (nk + 6 + 1)).toNat = 0 := congrArg BitVec.toNat h0
    simp only [BitVec.toNat_ofNat] at hcnt
    omega
  · simpa [hnk8] using hkey
  · simp only [finish_nr, setSchedule_nr, hnr8] at hk
    simp [hnk8, hnr8, expandKey, hk]
  · simp only [finish_nr, setSchedule_nr, hnr8] at hk
    simp [expandKey, Nat.not_le.2 hk]

/-- `EXPAND` keeps the invariant, with a legal key length and without. -/
theorem execExpand_keeps_inv {s t : State} (h : s.Inv) (ht : execExpand s = .next t) : t.Inv := by
  unfold execExpand at ht
  split at ht
  next =>
    cases ht
    obtain ⟨-, -, ho, he, hb⟩ := h
    have hzero : (setSchedule zeroRoundKeys 0#8 0#8 0#8 s).Inv :=
      ⟨.inl ⟨rfl, rfl, rfl⟩, scheduleLegal_of_zero rfl rfl, ho, he, hb⟩
    exact raise_keeps_inv hzero _
  next nk nr hp =>
    cases ht
    obtain ⟨hlen, rfl, hnk⟩ := params_eq_some hp
    refine setSchedule_keeps_inv h hnk ?_
    simp only [keyBytes, List.length_take, Vector.length_toList]
    omega

/-! The length of what a data command produces. -/

@[simp] theorem Run.after_out (out : Bytes) (r : Run) : (r.after out).out = out ++ r.out := rfl

theorem length_xorPrefix_le (x : Bytes) (k : Block) : (xorPrefix x k).length ≤ 16 := by
  simp [xorPrefix]

theorem length_cfbEncLoop_out_le (e : Block → Block) (st cv : Block) (xs : List Bytes) :
    (cfbEncLoop e st cv xs).out.length ≤ 16 * xs.length := by
  induction xs generalizing st cv with
  | nil => exact Nat.le_refl 0
  | cons x xs ih =>
    have := ih (e cv) (feedBack (xorPrefix x (e cv)) cv)
    have := length_xorPrefix_le x (e cv)
    simp only [cfbEncLoop, Run.after_out, List.length_append, List.length_cons]
    omega

theorem length_cfbDecLoop_out_le (e : Block → Block) (st cv : Block) (xs : List Bytes) :
    (cfbDecLoop e st cv xs).out.length ≤ 16 * xs.length := by
  induction xs generalizing st cv with
  | nil => exact Nat.le_refl 0
  | cons x xs ih =>
    have := ih (e cv) (feedBack x cv)
    have := length_xorPrefix_le x (e cv)
    simp only [cfbDecLoop, Run.after_out, List.length_append, List.length_cons]
    omega

theorem length_ofbLoop_out_le (e : Block → Block) (st cv : Block) (xs : List Bytes) :
    (ofbLoop e st cv xs).out.length ≤ 16 * xs.length := by
  induction xs generalizing st cv with
  | nil => exact Nat.le_refl 0
  | cons x xs ih =>
    have := ih (e cv) (e cv)
    have := length_xorPrefix_le x (e cv)
    simp only [ofbLoop, Run.after_out, List.length_append, List.length_cons]
    omega

theorem length_ctrLoop_out_le (e : Block → Block) (st cv : Block) (xs : List Bytes) :
    (ctrLoop e st cv xs).out.length ≤ 16 * xs.length := by
  induction xs generalizing st cv with
  | nil => exact Nat.le_refl 0
  | cons x xs ih =>
    have := ih (e cv) (ctrInc cv)
    have := length_xorPrefix_le x (e cv)
    simp only [ctrLoop, Run.after_out, List.length_append, List.length_cons]
    omega

theorem length_segments_message_le {s : State} (h : s.len.toNat ≤ Config.maxLen) :
    16 * (segments (message s)).length ≤ Config.maxLen + 16 := by
  simp only [length_segments, message_length, nSeg]
  omega

theorem length_blocks_message_le {s : State} (h : s.len.toNat ≤ Config.maxLen) :
    16 * (blocks (message s)).length ≤ Config.maxLen + 16 := by
  simp only [length_blocks, message_length, nSeg]
  omega

theorem length_blocks_pad_message_le {s : State} (h : s.len.toNat ≤ Config.maxLen) :
    16 * (blocks (pad (message s))).length ≤ Config.maxLen + 16 := by
  simp only [length_blocks, length_pad, message_length, nSeg]
  omega

/-- No ready command produces more than `MAXLEN + 16` bytes (R35); padding adds at most one block. -/
theorem length_dataRun_out_le {i : Instr} (nr : Fin 15) {s : State} (hr : s.Ready i) :
    (dataRun i nr s).out.length ≤ Config.maxLen + 16 := by
  obtain ⟨-, hlen, -, -⟩ := hr
  cases i with
  | expand | clear => exact Nat.zero_le _
  | encblk | decblk => simp [dataRun]
  | encecb => simpa [dataRun, ecbLoop_out] using length_blocks_pad_message_le (hlen rfl)
  | dececb => simpa [dataRun, ecbLoop_out] using length_blocks_message_le (hlen rfl)
  | enccbc => simpa [dataRun, cbcEncLoop_eq] using length_blocks_pad_message_le (hlen rfl)
  | deccbc => simpa [dataRun, cbcDecLoop_eq] using length_blocks_message_le (hlen rfl)
  | enccfb => exact (length_cfbEncLoop_out_le ..).trans (length_segments_message_le (hlen rfl))
  | deccfb => exact (length_cfbDecLoop_out_le ..).trans (length_segments_message_le (hlen rfl))
  | encofb | decofb => exact (length_ofbLoop_out_le ..).trans (length_segments_message_le (hlen rfl))
  | encctr | decctr => exact (length_ctrLoop_out_le ..).trans (length_segments_message_le (hlen rfl))

theorem length_unpad_le {d p : Bytes} (h : unpad d = some p) : p.length ≤ d.length := by
  unfold unpad at h
  split at h
  · cases h
  · simp only at h
    repeat' split at h
    all_goals cases h
    exact List.length_take_le' ..

/-- A data command keeps the invariant: it writes only `S`, `CV`, the output and `ERR`. -/
theorem exec_data_keeps_inv {i : Instr} (hi : i.isData = true) {s t : State} (h : s.Inv) (ht : exec i s = .next t) : t.Inv := by
  rw [exec_data hi] at ht
  rcases runData_next ht with ⟨e, -, rfl⟩ | ⟨hn, hc, rfl⟩
  · exact setOutput_keeps_inv h s.st s.cv (out := []) (Nat.zero_le _) e.code_legal
  · rw [dataCheck_clearOutput, dataCheck_eq_none hi] at hc
    have hrun := length_dataRun_out_le ⟨s.nr.toNat, hn⟩ (s := clearOutput s) hc.2
    unfold dataBody
    rcases dataFinish_shape i (dataRun i ⟨s.nr.toNat, hn⟩ (clearOutput s)) (clearOutput s) with ⟨out, heq, hout⟩ | ⟨-, -, heq⟩
    · rw [heq]
      refine setOutput_keeps_inv h _ _ ?_ rfl
      rcases hout with rfl | hout
      · exact hrun
      · exact (length_unpad_le hout).trans hrun
    · rw [heq]
      exact setOutput_keeps_inv h _ _ (out := []) (Nat.zero_le _) rfl

/-- Every command keeps the invariant. -/
theorem exec_keeps_inv {i : Instr} {s t : State} (h : s.Inv) (ht : exec i s = .next t) : t.Inv := by
  by_cases hi : i.isData = true
  · exact exec_data_keeps_inv hi h ht
  · rcases not_data hi with rfl | rfl
    · exact execExpand_keeps_inv h ht
    · rw [exec_clear] at ht
      cases ht
      exact zeroCore_inv s

/-- Every byte written to `CMD` keeps the invariant, a command's or an illegal one. -/
theorem runCommand_keeps_inv {v : Byte} {s t : State} (h : s.Inv) (ht : runCommand v s = .next t) : t.Inv := by
  unfold runCommand at ht
  split at ht
  · exact exec_keeps_inv h ht
  · cases ht
    exact raise_keeps_inv h _

/-- Every event of the host keeps the invariant. -/
theorem hostEvent_keeps_inv {e : HostEvent} {s t : State} (h : s.Inv) (ht : hostEvent e s = .next t) : t.Inv := by
  cases e with
  | read sel addr => cases ht; exact h
  | reset => cases ht; exact zeroCore_inv s
  | write sel addr data =>
    by_cases hcmd : sel = 0#2 ∧ addr = 0#32
    · obtain ⟨rfl, rfl⟩ := hcmd
      exact runCommand_keeps_inv h ht
    · rw [hostEvent, hostWrite_of_not_cmd hcmd] at ht
      cases ht
      exact portWrite_keeps_inv h sel addr data

/-- Settles O48: a step is idle or does one event, and every event keeps the invariant. -/
theorem stepKeepsInvariant : Obligations.StepKeepsInvariant := by
  intro s t h ht
  cases hh : s.host with
  | nil =>
    rw [step_of_host_nil hh] at ht
    cases ht
    exact h
  | cons e rest =>
    rw [step_of_host hh] at ht
    exact hostEvent_keeps_inv (s := { s with host := rest }) h ht

/-- Settles O47: the reset state is a zeroed core. -/
theorem resetSatisfiesInvariant : Obligations.ResetSatisfiesInvariant :=
  zeroCore_inv State.reset

end Sys2Proof.Machine
end

section
/-! PROOF. What the commands cannot see: the operands of a data command (30_encoding.md R95), and the hidden registers (10_state.md
R43). -/

namespace Sys2Proof.Machine

/-! The operands of a data command. -/

/-- `s'` has the operands that a data command reads as `s` has them (R95): the schedule, the IV, the hidden registers, `LEN`, and
the bytes of `DIN` below `LEN`. -/
structure SameOperands (s s' : State) : Prop where
  rk : s'.rk = s.rk
  nr : s'.nr = s.nr
  rkcnt : s'.rkcnt = s.rkcnt
  iv : s'.iv = s.iv
  ivlen : s'.ivlen = s.ivlen
  len : s'.len = s.len
  st : s'.st = s.st
  cv : s'.cv = s.cv
  din : ∀ a, a < s.len.toNat → s'.din.read a = s.din.read a

theorem SameOperands.message_eq {s s' : State} (h : SameOperands s s') : message s' = message s := by
  unfold message
  rw [h.len]
  exact Memory.readBytes_congr fun a _ ha => h.din a (by omega)

/-- The 16 bytes that a raw command reads are below its `LEN`. -/
theorem SameOperands.readBytes_eq {s s' : State} (h : SameOperands s s') (hlen : s.len.toNat = 16) :
    s'.din.readBytes 0 16 = s.din.readBytes 0 16 :=
  Memory.readBytes_congr fun a _ ha => h.din a (by omega)

theorem SameOperands.dataCheck_eq {s s' : State} (h : SameOperands s s') (i : Instr) : dataCheck i s' = dataCheck i s :=
  dataCheck_congr h.rkcnt h.nr h.len h.ivlen

/-- On a ready core the block operations depend on the operands alone. -/
theorem SameOperands.dataRun_eq {s s' : State} (h : SameOperands s s') {i : Instr} (hr : s.Ready i) (nr : Fin 15) :
    dataRun i nr s' = dataRun i nr s :=
  dataRun_congr h.rk h.st h.cv h.iv h.message_eq fun hraw => h.readBytes_eq (hr.1 hraw)

/-- A data command on states with the same operands does the same: a change `f` of the state that goes through the writes of a
data command goes through the command. -/
theorem exec_data_map {i : Instr} (hi : i.isData = true) {s s' : State} (h : SameOperands s s') (f : State → State)
    (hf : ∀ st cv dout olen err, { s' with st := st, cv := cv, dout := dout, olen := olen, err := err } =
      f { s with st := st, cv := cv, dout := dout, olen := olen, err := err }) :
    exec i s' = mapNext f (exec i s) := by
  have hclear : SameOperands (clearOutput s) (clearOutput s') := ⟨h.rk, h.nr, h.rkcnt, h.iv, h.ivlen, h.len, h.st, h.cv, h.din⟩
  rw [exec_data hi, exec_data hi]
  refine runData_map h.nr (hclear.dataCheck_eq i) (fun e => ?_) fun nr hc => ?_
  · exact (hf s'.st s'.cv [] 0#32 e.code).trans (by rw [h.st, h.cv]; rfl)
  · rw [dataCheck_eq_none hi] at hc
    rw [dataBody, dataBody, hclear.dataRun_eq hc.2]
    exact dataFinish_map f (fun p => hf ..) (hf ..)

/-- Settles O54: `KEY` and `KEYLEN` are no operands of a data command. -/
theorem dataCommandsDoNotReadKey : Obligations.DataCommandsDoNotReadKey := by
  intro s i k n hi
  have hops : SameOperands s { s with key := k, keylen := n } := ⟨rfl, rfl, rfl, rfl, rfl, rfl, rfl, rfl, fun _ _ => rfl⟩
  exact exec_data_map hi hops _ fun _ _ _ _ _ => rfl

/-- Settles O55: the bytes of `DIN` at and above `LEN` are no operands of a data command. -/
theorem bytesAboveLenAreNotRead : Obligations.BytesAboveLenAreNotRead := by
  intro s i m hi hm
  have hops : SameOperands s { s with din := m } := ⟨rfl, rfl, rfl, rfl, rfl, rfl, rfl, rfl, hm⟩
  exact exec_data_map hi hops _ fun _ _ _ _ _ => rfl

/-- Settles O53: `ERR` is no operand of a data command, and `EXPAND` and `CLEAR` only write it. -/
theorem noCommandReadsErr : Obligations.NoCommandReadsErr := by
  intro s i e
  by_cases hi : i.isData = true
  · have hops : SameOperands s { s with err := e } := ⟨rfl, rfl, rfl, rfl, rfl, rfl, rfl, rfl, fun _ _ => rfl⟩
    rw [exec_data_map hi hops id fun _ _ _ _ _ => rfl, mapNext_id]
  · rcases not_data hi with rfl | rfl
    · simp only [exec, execExpand]
      cases params s.keylen.toNat <;> rfl
    · rfl

/-! The hidden registers. -/

theorem cfbEncLoop_out_st (e : Block → Block) (st st' cv : Block) (xs : List Bytes) :
    (cfbEncLoop e st cv xs).out = (cfbEncLoop e st' cv xs).out := by
  cases xs <;> rfl

theorem cfbDecLoop_out_st (e : Block → Block) (st st' cv : Block) (xs : List Bytes) :
    (cfbDecLoop e st cv xs).out = (cfbDecLoop e st' cv xs).out := by
  cases xs <;> rfl

theorem ofbLoop_out_st (e : Block → Block) (st st' cv : Block) (xs : List Bytes) :
    (ofbLoop e st cv xs).out = (ofbLoop e st' cv xs).out := by
  cases xs <;> rfl

theorem ctrLoop_out_st (e : Block → Block) (st st' cv : Block) (xs : List Bytes) :
    (ctrLoop e st cv xs).out = (ctrLoop e st' cv xs).out := by
  cases xs <;> rfl

/-- The bytes a data command produces do not depend on `S` and `CV`: ECB does not read `CV`, the chained modes load it from `IV`,
and every block operation overwrites `S`. -/
theorem dataRun_out_setWorking (i : Instr) (nr : Fin 15) (a b : Block) (s : State) :
    (dataRun i nr (setWorking a b s)).out = (dataRun i nr s).out := by
  cases i with
  | encblk | decblk | expand | clear => rfl
  | encecb | dececb => exact (ecbLoop_out ..).trans (ecbLoop_out ..).symm
  | enccbc => simp only [dataRun, cbcEncLoop_eq]; rfl
  | deccbc => simp only [dataRun, cbcDecLoop_eq]; rfl
  | enccfb => exact cfbEncLoop_out_st ..
  | deccfb => exact cfbDecLoop_out_st ..
  | encofb | decofb => exact ofbLoop_out_st ..
  | encctr | decctr => exact ctrLoop_out_st ..

/-- Two runs with the same output end a command alike but for `S` and `CV`. -/
theorem dataFinish_setWorking (i : Instr) {r r' : Run} (h : r'.out = r.out) (a b : Block) (s : State) :
    dataFinish i r' (setWorking a b s) = setWorking r'.st r'.cv (dataFinish i r s) := by
  unfold dataFinish
  split
  · unfold finishUnpadded
    rw [h]
    cases unpad r.out <;> rfl
  · unfold finishRun
    rw [h]
    rfl

/-- No data command shows `S` or `CV`. -/
theorem exec_data_setWorking {i : Instr} (hi : i.isData = true) (a b : Block) (s : State) :
    ∃ a' b', exec i (setWorking a b s) = mapNext (setWorking a' b') (exec i s) := by
  rw [exec_data hi, exec_data hi]
  have hcheck : dataCheck i (clearOutput (setWorking a b s)) = dataCheck i (clearOutput s) := dataCheck_congr rfl rfl rfl rfl
  cases hc : dataCheck i (clearOutput s) with
  | some e =>
    refine ⟨a, b, ?_⟩
    rw [runData_of_error hc, runData_of_error (hcheck.trans hc)]
    rfl
  | none =>
    by_cases hn : s.nr.toNat < 15
    · have hout := dataRun_out_setWorking i ⟨s.nr.toNat, hn⟩ a b (clearOutput s)
      rw [runData_of_none hc hn, runData_of_none (hcheck.trans hc) hn]
      exact ⟨_, _, congrArg Host.Outcome.next (dataFinish_setWorking i hout a b (clearOutput s))⟩
    · refine ⟨a, b, ?_⟩
      rw [runData_of_absent hc hn, runData_of_absent (hcheck.trans hc) hn]
      rfl

/-- No command shows `S` or `CV`: `EXPAND` leaves them, `CLEAR` zeroes them. -/
theorem exec_setWorking (i : Instr) (a b : Block) (s : State) :
    ∃ a' b', exec i (setWorking a b s) = mapNext (setWorking a' b') (exec i s) := by
  by_cases hi : i.isData = true
  · exact exec_data_setWorking hi a b s
  · rcases not_data hi with rfl | rfl
    · refine ⟨a, b, ?_⟩
      simp only [exec, execExpand, setWorking_keylen]
      cases params s.keylen.toNat <;> rfl
    · exact ⟨zeroBlock, zeroBlock, rfl⟩

theorem portWrite_setWorking (sel : BitVec 2) (addr : BitVec 32) (data : Byte) (a b : Block) (s : State) :
    portWrite sel addr data (setWorking a b s) = setWorking a b (portWrite sel addr data s) := by
  unfold portWrite regWrite dinWrite
  repeat' split
  all_goals rfl

/-- No event of the host shows `S` or `CV`. -/
theorem hostEvent_setWorking (e : HostEvent) (a b : Block) (s : State) :
    ∃ a' b', hostEvent e (setWorking a b s) = mapNext (setWorking a' b') (hostEvent e s) := by
  cases e with
  | read sel addr => exact ⟨a, b, rfl⟩
  | reset => exact ⟨zeroBlock, zeroBlock, rfl⟩
  | write sel addr data =>
    by_cases hcmd : sel = 0#2 ∧ addr = 0#32
    · obtain ⟨rfl, rfl⟩ := hcmd
      simp only [hostEvent, hostWrite_cmd, runCommand]
      cases decode data with
      | command i => exact exec_setWorking i a b s
      | illegal _ => exact ⟨a, b, rfl⟩
    · refine ⟨a, b, ?_⟩
      simp only [hostEvent, hostWrite_of_not_cmd hcmd, portWrite_setWorking, mapNext]

/-- A step takes two states that differ only in `S` and `CV` to the same answer but for `S` and `CV`. -/
theorem step_setWorking (a b : Block) (s : State) :
    ∃ a' b', step (setWorking a b s) = mapNext (setWorking a' b') (step s) := by
  cases hh : s.host with
  | nil =>
    refine ⟨a, b, ?_⟩
    rw [step_of_host_nil hh, step_of_host_nil (s := setWorking a b s) hh]
    rfl
  | cons e rest =>
    rw [step_of_host hh, step_of_host (s := setWorking a b s) hh]
    exact hostEvent_setWorking e a b { s with host := rest }

/-- Settles O56: no address of the port reads `S` or `CV`, and no event shows them. -/
theorem hiddenRegistersUnobservable : Obligations.HiddenRegistersUnobservable :=
  fun s a b => ⟨fun _ _ => rfl, step_setWorking a b s⟩

end Sys2Proof.Machine
end

section
/-! PROOF. Which events write `ERR`, what a failed command gives out, the reserved addresses, and the reset state (10_state.md). -/

namespace Sys2Proof.Machine

/-! Who writes `ERR`. -/

theorem portWrite_err (sel : BitVec 2) (addr : BitVec 32) (data : Byte) (s : State) : (portWrite sel addr data s).err = s.err := by
  rcases portWrite_shape sel addr data s with ⟨_, _, _, _, _, h⟩ | ⟨_, _, h⟩ <;> rw [h]

/-- An event that changes `ERR` is a write to `CMD` or a reset. -/
theorem hostEvent_changes_err {e : HostEvent} {s t : State} (h : hostEvent e s = .next t) (herr : t.err ≠ s.err) :
    (∃ v, e = .write 0#2 0#32 v) ∨ e = .reset := by
  cases e with
  | reset => exact .inr rfl
  | read sel addr =>
    cases h
    exact absurd (hostRead_err sel addr s) herr
  | write sel addr data =>
    by_cases hcmd : sel = 0#2 ∧ addr = 0#32
    · obtain ⟨rfl, rfl⟩ := hcmd
      exact .inl ⟨data, rfl⟩
    · rw [hostEvent, hostWrite_of_not_cmd hcmd] at h
      cases h
      exact absurd (portWrite_err sel addr data s) herr

/-- Settles O52: an idle step changes nothing, and an event changes `ERR` only as a write to `CMD` or a reset. -/
theorem onlyCommandsWriteErr : Obligations.OnlyCommandsWriteErr := by
  intro s t ht herr
  cases hh : s.host with
  | nil =>
    rw [step_of_host_nil hh] at ht
    cases ht
    exact absurd rfl herr
  | cons e rest =>
    rw [step_of_host hh] at ht
    rcases hostEvent_changes_err ht herr with ⟨v, rfl⟩ | rfl
    · exact .inl ⟨v, rest, rfl⟩
    · exact .inr ⟨rest, rfl⟩

/-- Settles O45: a data command fails in its check, before anything but the output is written, or in the padding. -/
theorem failedDataCommandGivesNothingOut : Obligations.FailedDataCommandGivesNothingOut := by
  intro s t i hi ht herr
  rcases exec_data_next hi ht with ⟨e, -, rfl⟩ | ⟨-, -, st, cv, out, hend, -⟩
  · exact ⟨rfl, fun _ => rfl, fun _ => ⟨rfl, rfl⟩⟩
  · rcases hend with rfl | ⟨-, rfl⟩
    · exact absurd rfl herr
    · exact ⟨rfl, fun _ => rfl, fun h4 => absurd rfl h4⟩

/-! The reserved addresses of `REG` (R37). -/

/-- Read-only and reserved addresses ignore writes. -/
theorem regWrite_of_readOnly {a : Nat} (h : a = 0x01 ∨ (0x08 ≤ a ∧ a ≤ 0x0F) ∨ 0x40 ≤ a) (data : Byte) (s : State) :
    regWrite a data s = s := by
  simp (disch := omega) only [regWrite, if_neg, dif_neg]

/-- `CMD` and the reserved addresses read 0x00. -/
theorem regRead_of_reserved {a : Nat} (h : a = 0x00 ∨ a = 0x0F ∨ 0x44 ≤ a) (s : State) : regRead a s = 0x00#8 := by
  simp (disch := omega) only [regRead, if_neg, dif_neg]

/-- Settles O12: in space `REG` the port is the register map, which has nothing at these addresses. -/
theorem reservedAddressesInert : Obligations.ReservedAddressesInert := by
  intro s addr data rest
  refine ⟨fun hh ha => ?_, fun hh ha => ?_⟩
  · have hcmd : ¬ (0#2 = 0#2 ∧ addr = 0#32) := by
      rintro ⟨-, rfl⟩
      simp at ha
    rw [step_of_host hh, hostEvent, hostWrite_of_not_cmd hcmd, portWrite, if_pos rfl, regWrite_of_readOnly ha]
  · rw [step_of_host hh, hostEvent, hostRead, portRead, if_pos rfl, regRead_of_reserved ha]

/-! The reset state. -/

/-- `MAXLEN0..3` read as the bytes of the parameter, in every state (R33). -/
theorem portRead_maxLen (k : Fin 4) (s : State) :
    portRead 0#2 (BitVec.ofNat 32 (0x40 + k.val)) s = BitVec.ofNat 8 (Config.maxLen / 256 ^ k.val) := by
  have haddr : (BitVec.ofNat 32 (0x40 + k.val)).toNat = 0x40 + k.val := by simp; omega
  rw [← maxLenWord_toNat, ← byteOf_eq, portRead, if_pos rfl, haddr]
  simp (disch := omega) only [regRead, if_neg, dif_neg, if_pos, Nat.add_sub_cancel_left]

theorem zeroBlock_getElem (i : Fin 16) : zeroBlock[i] = 0#8 := by
  simp [zeroBlock]

theorem zeroRoundKeys_getElem (k : Fin 15) : zeroRoundKeys[k] = zeroBlock := by
  simp [zeroRoundKeys]

/-- Settles O7: the registers are vectors of zero bytes, the buffers list nothing, and `MAXLEN0..3` do not depend on the state. -/
theorem resetStateIsZero : Obligations.ResetStateIsZero := by
  refine ⟨fun i => ?_, rfl, zeroBlock_getElem, rfl, rfl, rfl, rfl, rfl, rfl, rfl, fun k i => ?_, zeroBlock_getElem, zeroBlock_getElem,
    fun _ => rfl, fun _ => rfl, fun k => portRead_maxLen k State.reset⟩
  · simp [State.reset]
  · exact (congrArg (·[i]) (zeroRoundKeys_getElem k)).trans (zeroBlock_getElem i)

end Sys2Proof.Machine
end

section
/-! PROOF. The host port (20_memory.md): what each address reads as, what a write changes and leaves unchanged, and the addresses
outside a space's range. -/

namespace Sys2Proof.Machine

/-! What each address reads as (R36, R61). -/

theorem portRead_reg (addr : BitVec 32) (s : State) : portRead 0#2 addr s = regRead addr.toNat s := rfl

theorem portRead_din (addr : BitVec 32) (s : State) :
    portRead 1#2 addr s = if addr.toNat < Config.maxLen then s.din.read addr.toNat else 0x00#8 := rfl

theorem portRead_dout (addr : BitVec 32) (s : State) :
    portRead 2#2 addr s = if addr.toNat < Config.maxLen + 16 then s.dout.read addr.toNat else 0x00#8 := rfl

theorem portRead_rkmem (addr : BitVec 32) (s : State) : portRead 3#2 addr s = rkRead addr.toNat s := rfl

theorem portRead_reg_ofNat {a : Nat} (h : a ≤ 0xFF) (s : State) : portRead 0#2 (BitVec.ofNat 32 a) s = regRead a s := by
  rw [portRead_reg, BitVec.toNat_ofNat, Nat.mod_eq_of_lt (by omega)]

theorem regRead_len {a : Nat} (h : 0x04 ≤ a ∧ a ≤ 0x07) (s : State) : regRead a s = byteOf s.len (a - 0x04) := by
  simp (disch := omega) only [regRead, if_neg, if_pos]

theorem regRead_olen {a : Nat} (h : 0x08 ≤ a ∧ a ≤ 0x0B) (s : State) : regRead a s = byteOf s.olen (a - 0x08) := by
  simp (disch := omega) only [regRead, if_neg, if_pos]

theorem regRead_iv {a : Nat} (h : 0x10 ≤ a ∧ a ≤ 0x1F) (s : State) : regRead a s = s.iv[a - 0x10] := by
  simp (disch := omega) only [regRead, if_neg, dif_pos]

theorem regRead_key {a : Nat} (h : 0x20 ≤ a ∧ a ≤ 0x3F) (s : State) : regRead a s = s.key[a - 0x20] := by
  simp (disch := omega) only [regRead, if_neg, dif_neg, dif_pos]

/-- Address `16k + i` of `RKMEM` is byte `i` of round key `k` (R65). -/
theorem rkRead_sixteen_mul_add (k : Fin 15) (i : Fin 16) (s : State) : rkRead (16 * k.val + i.val) s = s.rk[k][i] := by
  have hk : (16 * k.val + i.val) / 16 = k.val := by omega
  have hi : (16 * k.val + i.val) % 16 = i.val := by omega
  rw [rkRead, dif_pos (by omega)]
  simp only [hk, hi, Fin.getElem_fin]

theorem rkRead_of_outOfRange {a : Nat} (h : 240 ≤ a) (s : State) : rkRead a s = 0x00#8 :=
  dif_neg (Nat.not_lt.2 h)

/-- Settles O10: address by address, from the rule for each register, buffer and round key. -/
theorem portReadsTheRegisterMap : Obligations.PortReadsTheRegisterMap := by
  intro s
  refine ⟨rfl, rfl, rfl, rfl, fun k => ?len, fun k => ?olen, rfl, rfl, rfl, fun i => ?iv, fun i => ?key,
    fun k => portRead_maxLen k s, fun a ha => ?din, fun a ha => ?dout, fun k i => ?rk⟩
  case len => rw [portRead_reg_ofNat (by omega), regRead_len (by omega), Nat.add_sub_cancel_left, byteOf_eq]
  case olen => rw [portRead_reg_ofNat (by omega), regRead_olen (by omega), Nat.add_sub_cancel_left, byteOf_eq]
  case iv =>
    rw [portRead_reg_ofNat (by omega), regRead_iv (by omega)]
    simp only [Nat.add_sub_cancel_left, Fin.getElem_fin]
  case key =>
    rw [portRead_reg_ofNat (by omega), regRead_key (by omega)]
    simp only [Nat.add_sub_cancel_left, Fin.getElem_fin]
  case din => rw [portRead_din, if_pos ha]
  case dout => rw [portRead_dout, if_pos ha]
  case rk => rw [portRead_rkmem, BitVec.toNat_ofNat, Nat.mod_eq_of_lt (by omega), rkRead_sixteen_mul_add]

/-! One transaction as a step (R61, R71). -/

/-- Settles O5: a read is its event, and its event appends the byte. -/
theorem stepReadChangesNoState : Obligations.StepReadChangesNoState :=
  fun _ _ _ _ hh => step_of_host hh

/-- A write other than to `CMD`, as a step. -/
theorem step_write_of_not_cmd {s : State} {sel : BitVec 2} {addr : BitVec 32} {data : Byte} {rest : List HostEvent}
    (hh : s.host = .write sel addr data :: rest) (hcmd : ¬ (sel = 0#2 ∧ addr = 0#32)) :
    step s = .next (portWrite sel addr data { s with host := rest }) := by
  rw [step_of_host hh, hostEvent, hostWrite_of_not_cmd hcmd]

/-! The addresses outside a space's range (R66), and the read-only spaces (R64, R65). -/

theorem dinWrite_of_outOfRange {a : Nat} (h : Config.maxLen ≤ a) (data : Byte) (s : State) : dinWrite a data s = s :=
  if_neg (Nat.not_lt.2 h)

theorem portWrite_of_outOfRange {sel : BitVec 2} {addr : BitVec 32}
    (h : (sel = 0#2 ∧ 0xFF < addr.toNat) ∨ (sel = 1#2 ∧ Config.maxLen ≤ addr.toNat) ∨ sel = 2#2 ∨ sel = 3#2)
    (data : Byte) (s : State) : portWrite sel addr data s = s := by
  rcases h with ⟨rfl, ha⟩ | ⟨rfl, ha⟩ | rfl | rfl
  · exact regWrite_of_readOnly (by omega) data s
  · exact dinWrite_of_outOfRange ha data s
  · rfl
  · rfl

theorem portRead_of_outOfRange {sel : BitVec 2} {addr : BitVec 32}
    (h : (sel = 0#2 ∧ 0xFF < addr.toNat) ∨ (sel = 1#2 ∧ Config.maxLen ≤ addr.toNat) ∨
      (sel = 2#2 ∧ Config.maxLen + 16 ≤ addr.toNat) ∨ (sel = 3#2 ∧ 240 ≤ addr.toNat))
    (s : State) : portRead sel addr s = 0x00#8 := by
  rcases h with ⟨rfl, ha⟩ | ⟨rfl, ha⟩ | ⟨rfl, ha⟩ | ⟨rfl, ha⟩
  · exact regRead_of_reserved (by omega) s
  · rw [portRead_din, if_neg (Nat.not_lt.2 ha)]
  · rw [portRead_dout, if_neg (Nat.not_lt.2 ha)]
  · exact rkRead_of_outOfRange ha s

/-- Settles O13: none of these addresses is `CMD`, and the port ignores writes there and reads 0x00. -/
theorem outOfRangeAddressesInert : Obligations.OutOfRangeAddressesInert := by
  intro s sel addr data rest
  refine ⟨fun hh ha => ?_, fun hh ha => ?_⟩
  · have hcmd : ¬ (sel = 0#2 ∧ addr = 0#32) := by
      rintro ⟨rfl, rfl⟩
      simp at ha
    rw [step_write_of_not_cmd hh hcmd, portWrite_of_outOfRange ha]
  · rw [stepReadChangesNoState s sel addr rest hh, portRead_of_outOfRange ha]

/-! Read after write in space `REG`: each writable field is read at its own addresses and nowhere else. -/

theorem regWrite_len {a : Nat} (h : 0x04 ≤ a ∧ a ≤ 0x07) (data : Byte) (s : State) :
    regWrite a data s = { s with len := withByte s.len (a - 0x04) data } := by
  simp (disch := omega) only [regWrite, if_neg, if_pos]

theorem regWrite_iv {a : Nat} (h : 0x10 ≤ a ∧ a ≤ 0x1F) (data : Byte) (s : State) :
    regWrite a data s = { s with iv := s.iv.set (a - 0x10) data } := by
  simp (disch := omega) only [regWrite, if_neg, dif_pos]

theorem regWrite_key {a : Nat} (h : 0x20 ≤ a ∧ a ≤ 0x3F) (data : Byte) (s : State) :
    regWrite a data s = { s with key := s.key.set (a - 0x20) data } := by
  simp (disch := omega) only [regWrite, if_neg, dif_neg, dif_pos]

theorem regRead_with_keylen (a : Nat) (x : Byte) (s : State) :
    regRead a { s with keylen := x } = if a = 0x02 then x else regRead a s := by
  by_cases h : a = 0x02
  · simp [regRead, h]
  · simp [regRead, h]

theorem regRead_with_ivlen (a : Nat) (x : Byte) (s : State) :
    regRead a { s with ivlen := x } = if a = 0x03 then x else regRead a s := by
  by_cases h : a = 0x03
  · simp [regRead, h]
  · simp [regRead, h]

theorem regRead_with_len (a : Nat) (x : BitVec 32) (s : State) :
    regRead a { s with len := x } = if 0x04 ≤ a ∧ a ≤ 0x07 then byteOf x (a - 0x04) else regRead a s := by
  by_cases h : 0x04 ≤ a ∧ a ≤ 0x07
  · simp (disch := omega) only [regRead, if_neg, if_pos]
  · simp [regRead, h]

theorem regRead_with_iv (a : Nat) (x : Block) (s : State) :
    regRead a { s with iv := x } = if h : 0x10 ≤ a ∧ a ≤ 0x1F then x[a - 0x10]'(by omega) else regRead a s := by
  by_cases h : 0x10 ≤ a ∧ a ≤ 0x1F
  · simp (disch := omega) only [regRead, if_neg, dif_pos]
  · simp [regRead, h]

theorem regRead_with_key (a : Nat) (x : Vector Byte 32) (s : State) :
    regRead a { s with key := x } = if h : 0x20 ≤ a ∧ a ≤ 0x3F then x[a - 0x20]'(by omega) else regRead a s := by
  by_cases h : 0x20 ≤ a ∧ a ≤ 0x3F
  · simp (disch := omega) only [regRead, if_neg, dif_neg, dif_pos]
  · simp [regRead, h]

/-- A writable address of `REG` reads as written, every other address of `REG` as before. -/
theorem regRead_regWrite {a : Nat} (h : (0x02 ≤ a ∧ a ≤ 0x07) ∨ (0x10 ≤ a ∧ a ≤ 0x3F)) (data : Byte) (s : State) (a' : Nat) :
    regRead a' (regWrite a data s) = if a' = a then data else regRead a' s := by
  have hfield : a = 0x02 ∨ a = 0x03 ∨ (0x04 ≤ a ∧ a ≤ 0x07) ∨ (0x10 ≤ a ∧ a ≤ 0x1F) ∨ (0x20 ≤ a ∧ a ≤ 0x3F) := by omega
  rcases hfield with rfl | rfl | ha | ha | ha
  · exact regRead_with_keylen ..
  · exact regRead_with_ivlen ..
  · rw [regWrite_len ha, regRead_with_len]
    split
    next ha' =>
      rw [byteOf_withByte _ _ _ _ (by omega) (by omega), regRead_len ha']
      simp only [show a' - 0x04 = a - 0x04 ↔ a' = a by omega]
    next => rw [if_neg (by omega)]
  · rw [regWrite_iv ha, regRead_with_iv]
    split
    next ha' => simp only [Vector.getElem_set, regRead_iv ha', show a - 0x10 = a' - 0x10 ↔ a' = a by omega]
    next => rw [if_neg (by omega)]
  · rw [regWrite_key ha, regRead_with_key]
    split
    next ha' => simp only [Vector.getElem_set, regRead_key ha', show a - 0x20 = a' - 0x20 ↔ a' = a by omega]
    next => rw [if_neg (by omega)]

/-! Read after write at the port (R61, R71). -/

/-- The other spaces do not read what a write to `REG` writes. -/
theorem portRead_regWrite_of_ne {sel : BitVec 2} (h : sel ≠ 0#2) (addr : BitVec 32) (a : Nat) (data : Byte) (s : State) :
    portRead sel addr (regWrite a data s) = portRead sel addr s := by
  obtain ⟨key, keylen, iv, ivlen, len, hw⟩ := regWrite_shape a data s
  rw [hw]
  simp only [portRead, if_neg h]
  rfl

/-- The other spaces do not read `DIN`. -/
theorem portRead_with_din_of_ne {sel : BitVec 2} (h : sel ≠ 1#2) (addr : BitVec 32) (m : Memory) (s : State) :
    portRead sel addr { s with din := m } = portRead sel addr s := by
  simp only [portRead, if_neg h]
  rfl

theorem portRead_portWrite_reg {addr : BitVec 32}
    (h : (0x02 ≤ addr.toNat ∧ addr.toNat ≤ 0x07) ∨ (0x10 ≤ addr.toNat ∧ addr.toNat ≤ 0x3F)) (data : Byte) (s : State)
    (sel' : BitVec 2) (addr' : BitVec 32) :
    portRead sel' addr' (portWrite 0#2 addr data s) = if sel' = 0#2 ∧ addr' = addr then data else portRead sel' addr' s := by
  rw [portWrite, if_pos rfl]
  by_cases hsel : sel' = 0#2
  · subst hsel
    simp only [portRead_reg, regRead_regWrite h, BitVec.toNat_inj, true_and]
  · rw [portRead_regWrite_of_ne hsel, if_neg fun heq => hsel heq.1]

theorem portRead_portWrite_din {addr : BitVec 32} (h : addr.toNat < Config.maxLen) (data : Byte) {s : State} (hwf : s.din.wf)
    (sel' : BitVec 2) (addr' : BitVec 32) :
    portRead sel' addr' (portWrite 1#2 addr data s) = if sel' = 1#2 ∧ addr' = addr then data else portRead sel' addr' s := by
  have hw : portWrite 1#2 addr data s = { s with din := s.din.write addr.toNat data } := if_pos h
  rw [hw]
  by_cases hsel : sel' = 1#2
  · subst hsel
    rw [portRead_din, portRead_din]
    simp only [Memory.read_write hwf, BitVec.toNat_inj, true_and]
    by_cases haddr : addr' = addr
    · subst haddr
      simp only [if_pos h, if_true]
    · simp only [if_neg haddr]
  · rw [portRead_with_din_of_ne hsel, if_neg fun heq => hsel heq.1]

/-- A writable address reads as written, every other address of every space as before. -/
theorem portRead_portWrite {sel : BitVec 2} {addr : BitVec 32}
    (h : (sel = 0#2 ∧ ((0x02 ≤ addr.toNat ∧ addr.toNat ≤ 0x07) ∨ (0x10 ≤ addr.toNat ∧ addr.toNat ≤ 0x3F))) ∨
      (sel = 1#2 ∧ addr.toNat < Config.maxLen))
    (data : Byte) {s : State} (hwf : s.din.wf) (sel' : BitVec 2) (addr' : BitVec 32) :
    portRead sel' addr' (portWrite sel addr data s) = if sel' = sel ∧ addr' = addr then data else portRead sel' addr' s := by
  rcases h with ⟨rfl, ha⟩ | ⟨rfl, ha⟩
  · exact portRead_portWrite_reg ha data s sel' addr'
  · exact portRead_portWrite_din ha data hwf sel' addr'

/-- What the host cannot read, and its own side of the port, a write leaves alone. -/
theorem portWrite_frame (sel : BitVec 2) (addr : BitVec 32) (data : Byte) (s : State) :
    (portWrite sel addr data s).st = s.st ∧ (portWrite sel addr data s).cv = s.cv ∧
      (portWrite sel addr data s).host = s.host ∧ (portWrite sel addr data s).reads = s.reads := by
  rcases portWrite_shape sel addr data s with ⟨_, _, _, _, _, hw⟩ | ⟨_, _, hw⟩
  · rw [hw]; exact ⟨rfl, rfl, rfl, rfl⟩
  · rw [hw]; exact ⟨rfl, rfl, rfl, rfl⟩

/-- Settles O11: a writable address is not `CMD`, so the step is the port's write, which reads back and changes nothing else. -/
theorem writtenByteReadsBack : Obligations.WrittenByteReadsBack := by
  intro s sel addr data rest hwf hh hwritable
  have hcmd : ¬ (sel = 0#2 ∧ addr = 0#32) := by
    rintro ⟨rfl, rfl⟩
    simp at hwritable
  have hread := portRead_portWrite hwritable data (s := { s with host := rest }) hwf
  refine ⟨_, step_write_of_not_cmd hh hcmd, ?same, fun sel' addr' hne => ?other,
    portWrite_frame sel addr data { s with host := rest }⟩
  case same => rw [hread, if_pos ⟨rfl, rfl⟩]
  case other => rw [hread, if_neg hne]; rfl

end Sys2Proof.Machine
end

section
/-! PROOF. The encoding (30_encoding.md R90 to R97): the bytes that decode to a command are the bytes of the table, and a write to
`CMD` runs the command or raises IllegalCommand. -/

namespace Sys2Proof

/-! The decoder and the encoder go through the fields of R90. -/

theorem C8.pack_unpack (v : Byte) : C8.pack (C8.unpack v) = v := by
  ext k hk
  interval_cases k <;> simp [C8.pack, C8.unpack]

/-- The byte of every command is packed from its fields, and those are legal (R90, R91, R92). -/
theorem Instr.encodingFields (i : Instr) : Laws.EncodingFields.Statement i := by
  cases i <;> exact ⟨rfl, rfl⟩

theorem decode_encode (i : Instr) : decode (encode i) = .command i := by
  cases i <;> rfl

/-- Where `DIR` chooses between two commands, the one chosen has the fields that were decoded. -/
theorem fields_of_dir {i a b : Instr} {c : C8} {o : BitVec 4} {m : BitVec 3} (hopc : c.opc = o) (hmode : c.mode = m)
    (ha : a.fields = ⟨o, m, 0#1⟩) (hb : b.fields = ⟨o, m, 1#1⟩)
    (h : Decoded.command (if c.dir = 0#1 then a else b) = .command i) : i.fields = c := by
  obtain ⟨opc, mode, dir⟩ := c
  subst hopc hmode
  rcases BitVec.eq_zero_or_eq_one dir with rfl | rfl
  · cases h; exact ha
  · cases h; exact hb

theorem fields_of_decodePlain {i j : Instr} {c : C8} {o : BitVec 4} (hopc : c.opc = o) (hj : j.fields = ⟨o, 0#3, 0#1⟩)
    (h : decodePlain j c = .command i) : i.fields = c := by
  obtain ⟨opc, mode, dir⟩ := c
  subst hopc
  unfold decodePlain at h
  split at h
  · cases h
  split at h
  · cases h
  next hmode hdir =>
    obtain rfl : mode = 0#3 := not_not.1 hmode
    obtain rfl : dir = 0#1 := not_not.1 hdir
    cases h
    exact hj

theorem fields_of_decodeBlock {i : Instr} {c : C8} (hopc : c.opc = 0x2#4) (h : decodeBlock c = .command i) : i.fields = c := by
  unfold decodeBlock at h
  split at h
  · cases h
  next hmode => exact fields_of_dir hopc (not_not.1 hmode) rfl rfl h

theorem fields_of_decodeMsg {i : Instr} {c : C8} (hopc : c.opc = 0x3#4) (h : decodeMsg c = .command i) : i.fields = c := by
  unfold decodeMsg at h
  split at h
  next hmode => exact fields_of_dir hopc hmode rfl rfl h
  split at h
  next hmode => exact fields_of_dir hopc hmode rfl rfl h
  split at h
  next hmode => exact fields_of_dir hopc hmode rfl rfl h
  split at h
  next hmode => exact fields_of_dir hopc hmode rfl rfl h
  split at h
  next hmode => exact fields_of_dir hopc hmode rfl rfl h
  next => cases h

/-- The decoder answers a command only for that command's own fields (R90, R91). -/
theorem fields_of_decodeFields {i : Instr} {c : C8} (h : decodeFields c = .command i) : i.fields = c := by
  unfold decodeFields at h
  split at h
  next hopc => exact fields_of_decodePlain hopc rfl h
  split at h
  next hopc => exact fields_of_decodeBlock hopc h
  split at h
  next hopc => exact fields_of_decodeMsg hopc h
  split at h
  next hopc => exact fields_of_decodePlain hopc rfl h
  next => cases h

/-- A byte decodes to a command exactly when it is that command's byte (R92, R93). -/
theorem decode_eq_command_iff {v : Byte} {i : Instr} : decode v = .command i ↔ v = encode i := by
  constructor
  · intro h
    calc v = C8.pack (C8.unpack v) := (C8.pack_unpack v).symm
      _ = C8.pack i.fields := by rw [fields_of_decodeFields h]
      _ = encode i := i.encodingFields.1.symm
  · rintro rfl
    exact decode_encode i

/-- Settles O1: every row of the table decodes to itself, and the decoder answers no other command. -/
theorem decodeEncodeAgree : Obligations.DecodeEncodeAgree :=
  ⟨fun i => ⟨i.encodingFields.2, decode_encode i⟩, fun _ _ => decode_eq_command_iff.1⟩

/-- Settles O2: the five bytes are those of their commands. -/
theorem tableBytesDecode : Obligations.TableBytesDecode :=
  ⟨decode_encode .expand, decode_encode .decblk, decode_encode .enccbc, decode_encode .decctr, decode_encode .clear⟩

end Sys2Proof

namespace Sys2Proof.Machine

/-! A write to `CMD` (R93, R96). -/

theorem runCommand_of_decode {v : Byte} {i : Instr} (h : decode v = .command i) (s : State) : runCommand v s = exec i s := by
  simp only [runCommand, h]

/-- A byte that is no command's raises IllegalCommand. -/
theorem runCommand_of_illegal {v : Byte} (h : ∀ i, v ≠ encode i) (s : State) : runCommand v s = .next (illegalCommand s) := by
  unfold runCommand
  split
  next i hi => exact absurd (decode_eq_command_iff.1 hi) (h i)
  next => rfl

/-- Settles O3: no command's byte lies in one of the ranges, so the write raises IllegalCommand. -/
theorem illegalByteOnlySetsErr : Obligations.IllegalByteOnlySetsErr := by
  intro s v rest hh hv
  have hillegal : ∀ i, v ≠ encode i := by
    rintro i rfl
    revert hv
    cases i <;> decide
  rw [step_of_host hh, hostEvent, hostWrite_cmd, runCommand_of_illegal hillegal]
  rfl

/-- Settles O4: a write to `CMD` is the command its byte decodes to. -/
theorem stepRunsDecodedCommand : Obligations.StepRunsDecodedCommand := by
  intro s v i rest hh hdecode _
  rw [step_of_host hh, hostEvent, hostWrite_cmd, runCommand_of_decode hdecode]

end Sys2Proof.Machine
end

section
/-! PROOF. The host scripts (30_encoding.md R98 to R102): a run of writes fills its register or buffer from the front, and an
operation with a key is `EXPAND`, checked, and then the operation with the schedule held. -/

namespace Sys2Proof.Machine

/-! A run of writes, byte by byte. -/

/-- The bytes of a sequence put one after the other into `a` with `put`, from index `k` on. -/
def putBytes {α : Type} (put : α → Nat → Byte → α) : α → Nat → Bytes → α
  | a, _, [] => a
  | a, k, b :: x => putBytes put (put a k b) (k + 1) x

/-- Where a write to address `base + k` of a space is `put` at index `k` of one field, for every `k` below `n`, a run of writes
that stays below `n` puts its bytes there, one after the other. -/
theorem runScript_writesFrom {α : Type} {put : α → Nat → Byte → α} {field : α → State} {sel : BitVec 2} {base n : Nat}
    (h : ∀ a k b, k < n → hostEvent (.write sel (BitVec.ofNat 32 (base + k)) b) (field a) = .next (field (put a k b)))
    (a : α) (k : Nat) (x : Bytes) (hx : k + x.length ≤ n) :
    runScript (writesFrom sel (base + k) x) (field a) = .next (field (putBytes put a k x)) := by
  induction x generalizing a k with
  | nil => rfl
  | cons b x ih =>
    rw [List.length_cons] at hx
    rw [writesFrom, runScript_cons, h a k b (by omega), thenRun_next]
    exact ih (put a k b) (k + 1) (by omega)

theorem putBytes_write (m : Memory) (addr : Nat) (x : Bytes) : putBytes Memory.write m addr x = m.writeBytes addr x := by
  induction x generalizing m addr with
  | nil => rfl
  | cons b x ih => exact ih (m.write addr b) (addr + 1)

/-- Bytes put into a register: the sequence at its indices, every other byte as before. -/
theorem getElem_putBytes {n : Nat} (v : Vector Byte n) (k : Nat) (x : Bytes) (i : Nat) (hi : i < n) :
    (putBytes Vector.setIfInBounds v k x)[i] = if k ≤ i then x.getD (i - k) v[i] else v[i] := by
  induction x generalizing v k with
  | nil => simp [putBytes]
  | cons b x ih =>
    rw [putBytes, ih, Vector.getElem_setIfInBounds]
    rcases Nat.lt_trichotomy i k with hlt | rfl | hgt
    · simp [show ¬ k + 1 ≤ i by omega, show ¬ k ≤ i by omega, show k ≠ i by omega]
    · simp
    · obtain ⟨j, rfl⟩ : ∃ j, i = k + 1 + j := ⟨i - (k + 1), by omega⟩
      simp [show k + 1 + j - k = j + 1 by omega, show k ≤ k + 1 + j by omega, show k ≠ k + 1 + j by omega]

/-- A write to `REG` other than to `CMD` writes the register map. -/
theorem hostEvent_write_reg {a : Nat} (h : 0 < a ∧ a ≤ 0xFF) (b : Byte) (s : State) :
    hostEvent (.write 0#2 (BitVec.ofNat 32 a) b) s = .next (regWrite a b s) := by
  have ha : (BitVec.ofNat 32 a).toNat = a := by
    rw [BitVec.toNat_ofNat, Nat.mod_eq_of_lt (by omega)]
  have hcmd : ¬ (0#2 = 0#2 ∧ BitVec.ofNat 32 a = 0#32) := by
    rintro ⟨-, h0⟩
    rw [h0] at ha
    exact absurd ha (by simp; omega)
  rw [hostEvent, hostWrite_of_not_cmd hcmd, portWrite, if_pos rfl, ha]

/-! `SETKEY` and `SETIV` (R99, R101). -/

/-- A write at an index below the size is in bounds. -/
theorem setIfInBounds_of_lt {n : Nat} (v : Vector Byte n) {k : Nat} (hk : k < n) (b : Byte) : v.setIfInBounds k b = v.set k b := by
  ext i hi
  rw [Vector.getElem_setIfInBounds, Vector.getElem_set]

/-- The bytes that fit put into a register from its front: they are at their indices, every other byte as before. -/
theorem getElem_putBytes_take {n : Nat} (v : Vector Byte n) (x : Bytes) (i : Nat) (hi : i < n) :
    (putBytes Vector.setIfInBounds v 0 (x.take n))[i] = x.getD i v[i] := by
  rw [getElem_putBytes, if_pos (Nat.zero_le i)]
  simp [List.getD_eq_getElem?_getD, List.getElem?_take_of_lt hi]

theorem hostEvent_write_key (s : State) (v : Vector Byte 32) (k : Nat) (b : Byte) (hk : k < 32) :
    hostEvent (.write 0#2 (BitVec.ofNat 32 (0x20 + k)) b) { s with key := v } = .next { s with key := v.setIfInBounds k b } := by
  rw [hostEvent_write_reg (by omega), regWrite_key (by omega)]
  simp only [Nat.add_sub_cancel_left, setIfInBounds_of_lt v hk]

theorem hostEvent_write_iv (s : State) (v : Block) (k : Nat) (b : Byte) (hk : k < 16) :
    hostEvent (.write 0#2 (BitVec.ofNat 32 (0x10 + k)) b) { s with iv := v } = .next { s with iv := v.setIfInBounds k b } := by
  rw [hostEvent_write_reg (by omega), regWrite_iv (by omega)]
  simp only [Nat.add_sub_cancel_left, setIfInBounds_of_lt v hk]

/-- The state that `SETKEY key` leaves. -/
def State.withKey (key : Bytes) (s : State) : State :=
  { s with key := putBytes Vector.setIfInBounds s.key 0 (key.take 32), keylen := BitVec.ofNat 8 (min key.length 255) }

/-- All that `SETKEY` does. -/
theorem runScript_setKey (s : State) (key : Bytes) : runScript (setKey key) s = .next (s.withKey key) := by
  have hkey := runScript_writesFrom (hostEvent_write_key s) s.key 0 (key.take 32) (by simp)
  rw [setKey, runScript_append, hkey]
  rfl

/-- All that `SETIV` does. -/
theorem runScript_setIv (s : State) (x : Bytes) :
    runScript (setIv x) s = .next { s with
      iv := putBytes Vector.setIfInBounds s.iv 0 (x.take 16), ivlen := BitVec.ofNat 8 (min x.length 255) } := by
  have hiv := runScript_writesFrom (hostEvent_write_iv s) s.iv 0 (x.take 16) (by simp)
  rw [setIv, runScript_append, hiv]
  rfl

/-- Settles O57: both scripts are a run of writes from the front of the register, and then the length. -/
theorem setKeyAndSetIv : Obligations.SetKeyAndSetIv :=
  fun s x => ⟨⟨_, runScript_setKey s x, fun i => getElem_putBytes_take s.key x i i.isLt⟩,
    _, runScript_setIv s x, fun i => getElem_putBytes_take s.iv x i i.isLt⟩

/-! `SETDATA` (R99, R101). -/

/-- A 32-bit register is given by its four bytes. -/
theorem byteOf_injective {x y : BitVec 32} (h : ∀ k, k < 4 → byteOf x k = byteOf y k) : x = y := by
  rw [← assemble_bytes x, ← assemble_bytes y, h 0 (by decide), h 1 (by decide), h 2 (by decide), h 3 (by decide)]

/-- The four bytes of a value put into a 32-bit register make the value, whatever was there. -/
theorem putBytes_withByte (x n : BitVec 32) :
    putBytes withByte x 0 [byteOf n 0, byteOf n 1, byteOf n 2, byteOf n 3] = n := by
  refine byteOf_injective fun k hk => ?_
  simp only [putBytes, byteOf_withByte _ _ _ _ (show 0 < 4 by decide) hk, byteOf_withByte _ _ _ _ (show 0 + 1 < 4 by decide) hk,
    byteOf_withByte _ _ _ _ (show 0 + 1 + 1 < 4 by decide) hk, byteOf_withByte _ _ _ _ (show 0 + 1 + 1 + 1 < 4 by decide) hk]
  interval_cases k <;> rfl

theorem hostEvent_write_len (s : State) (n : BitVec 32) (k : Nat) (b : Byte) (hk : k < 4) :
    hostEvent (.write 0#2 (BitVec.ofNat 32 (0x04 + k)) b) { s with len := n } = .next { s with len := withByte n k b } := by
  rw [hostEvent_write_reg (by omega), regWrite_len (by omega)]
  simp only [Nat.add_sub_cancel_left]

theorem hostEvent_write_din (s : State) (m : Memory) (k : Nat) (b : Byte) (hk : k < Config.maxLen) :
    hostEvent (.write 1#2 (BitVec.ofNat 32 (0 + k)) b) { s with din := m } = .next { s with din := m.write k b } := by
  have hcmd : ¬ ((1#2 : BitVec 2) = 0#2 ∧ BitVec.ofNat 32 (0 + k) = 0#32) := fun h => absurd h.1 (by decide)
  rw [hostEvent, hostWrite_of_not_cmd hcmd, Nat.zero_add]
  show Host.Outcome.next (dinWrite (BitVec.ofNat 32 k).toNat b { s with din := m }) = _
  rw [Config.toNat_ofNat (by omega), dinWrite, if_pos hk]

/-- All that `SETDATA` does. -/
theorem runScript_setData (s : State) (x : Bytes) :
    runScript (setData x) s = .next { s with
      din := s.din.writeBytes 0 (x.take Config.maxLen), len := BitVec.ofNat 32 x.length } := by
  have hdin := runScript_writesFrom (hostEvent_write_din s) s.din 0 (x.take Config.maxLen) (by simp)
  rw [putBytes_write] at hdin
  have hlen := runScript_writesFrom (hostEvent_write_len { s with din := s.din.writeBytes 0 (x.take Config.maxLen) }) s.len 0
    [byteOf (BitVec.ofNat 32 x.length) 0, byteOf (BitVec.ofNat 32 x.length) 1, byteOf (BitVec.ofNat 32 x.length) 2,
      byteOf (BitVec.ofNat 32 x.length) 3] (Nat.le_refl 4)
  rw [putBytes_withByte] at hlen
  rw [setData, runScript_append, hdin]
  exact hlen

/-- The bytes that fit written to a buffer from address 0: they are at their addresses, every other byte as before. -/
theorem read_writeBytes_take {m : Memory} (h : m.wf) (x : Bytes) (n a : Nat) :
    (m.writeBytes 0 (x.take n)).read a = if a < n then x.getD a (m.read a) else m.read a := by
  rw [Memory.read_writeBytes h, List.length_take]
  by_cases hn : a < n
  · by_cases hx : a < x.length
    · rw [if_pos (by omega), if_pos hn, List.getD_eq_getElem _ _ hx, List.getD_eq_getElem _ _ (by simp; omega)]
      simp
    · rw [if_neg (by omega), if_pos hn, List.getD_eq_default _ _ (by omega)]
  · rw [if_neg (by omega), if_neg hn]

/-- Settles O58: `SETDATA` is a run of writes from the front of `DIN`, and then the four bytes of the length. -/
theorem setDataStoresMessage : Obligations.SetDataStoresMessage :=
  fun s x hwf _ => ⟨_, runScript_setData s x, read_writeBytes_take hwf x Config.maxLen⟩

/-! `SETKEY; EXPAND; GETERR` (R100, R157). -/

theorem hostEvent_command (i : Instr) (s : State) : hostEvent (command i) s = exec i s := by
  rw [command, hostEvent, hostWrite_cmd, runCommand_of_decode (decode_encode i)]

theorem exec_expand_of_params_none {s : State} (h : params s.keylen.toNat = none) :
    exec .expand s = .next (raise .invalidKeySize (setSchedule zeroRoundKeys 0#8 0#8 0#8 s)) := by
  simp only [exec, execExpand, h]

theorem exec_expand_of_params_some {s : State} {nk nr : Nat} (h : params s.keylen.toNat = some (nk, nr)) :
    exec .expand s = .next (finish (setSchedule (expandKey nk nr (keyBytes s))
      (BitVec.ofNat 8 nk) (BitVec.ofNat 8 nr) (BitVec.ofNat 8 (nr + 1)) s)) := by
  simp only [exec, execExpand, h]

theorem runScript_getErr (s : State) : runScript getErr s = .next { s with reads := s.reads ++ [s.err] } := by
  rw [getErr, runScript_readsFrom]
  rfl

theorem State.withKey_keylen_toNat (key : Bytes) (s : State) : (s.withKey key).keylen.toNat = min key.length 255 := by
  simp only [State.withKey, BitVec.toNat_ofNat]
  omega

/-- A key that fits is what `EXPAND` reads back. -/
theorem keyBytes_withKey {key : Bytes} (h : key.length ≤ 32) (s : State) : keyBytes (s.withKey key) = key := by
  unfold keyBytes
  rw [State.withKey_keylen_toNat]
  refine List.ext_getElem (by simp; omega) fun i hi hi' => ?_
  simp only [State.withKey, List.getElem_take, Vector.getElem_toList, getElem_putBytes_take]
  exact List.getD_eq_getElem _ _ hi'

/-- `SETKEY; EXPAND` is the command on the state with the key. -/
theorem runScript_setKey_expand (key : Bytes) (s : State) :
    runScript (setKey key ++ [command .expand]) s = exec .expand (s.withKey key) := by
  rw [runScript_append, runScript_setKey, thenRun_next, runScript_cons, hostEvent_command]
  cases exec .expand (s.withKey key) <;> rfl

/-- The capped length of a key is a legal one only for a key of that length. -/
theorem params_min_eq_none {n : Nat} (h : ¬ (n = 16 ∨ n = 24 ∨ n = 32)) : params (min n 255) = none :=
  if_neg (by omega)

theorem params_min_eq_some {n : Nat} (h : n = 16 ∨ n = 24 ∨ n = 32) : params (min n 255) = some (n / 4, n / 4 + 6) := by
  rw [Nat.min_eq_left (by omega), params, if_pos h]

/-- Settles O60: `EXPAND` raises InvalidKeySize or ends well with the schedule, and the check lets only the second go on. -/
theorem operationDerivesItsSchedule : Obligations.OperationDerivesItsSchedule := by
  intro s i key text iv
  refine ⟨fun hillegal => ?_, fun hlegal => ?_⟩
  · have hexp := runScript_setKey_expand key s
    rw [exec_expand_of_params_none (by rw [State.withKey_keylen_toNat, params_min_eq_none hillegal])] at hexp
    exact ⟨_, checked_next hexp, rfl⟩
  · have hexp := runScript_setKey_expand key s
    rw [exec_expand_of_params_some (by rw [State.withKey_keylen_toNat, params_min_eq_some hlegal]),
      keyBytes_withKey (by omega)] at hexp
    refine ⟨_, ?_, checked_next hexp, ?_, rfl⟩
    · rw [runScript_append, hexp, thenRun_next, runScript_getErr]
    · have hnr : (BitVec.ofNat 8 (key.length / 4 + 6)).toNat = key.length / 4 + 6 := by
        rw [BitVec.toNat_ofNat]; omega
      have hcnt : (BitVec.ofNat 8 (key.length / 4 + 6 + 1)).toNat = key.length / 4 + 6 + 1 := by
        rw [BitVec.toNat_ofNat]; omega
      exact ⟨hcnt.trans (congrArg (· + 1) hnr.symm), hnr.trans_lt (by omega)⟩

end Sys2Proof.Machine
end

section
/-! PROOF. The field GF(2^8) and the substitution tables (40_gf_and_tables.md). -/

namespace Sys2Proof.Machine

/-! Every byte is an exclusive-or of single bits (R110), so a linear law is checked on the eight of them. -/

/-- The low `n + 1` bits of a byte are its low `n` bits and bit `n`. -/
theorem setWidth_succ_eq_xor (b : Byte) (n : Nat) : (b.setWidth (n + 1)).setWidth 8 =
    if b.getLsbD n = true then (b.setWidth n).setWidth 8 ^^^ BitVec.twoPow 8 n else (b.setWidth n).setWidth 8 := by
  split
  next h =>
    rw [BitVec.setWidth_setWidth_succ_eq_setWidth_setWidth_or_twoPow_of_getLsbD_true h]
    refine BitVec.eq_of_getLsbD_eq fun i hi => ?_
    by_cases hin : i = n
    · simp [hin]
    · simp [Ne.symm hin]
  next h => exact BitVec.setWidth_setWidth_succ_eq_setWidth_setWidth_of_getLsbD_false (Bool.eq_false_of_not_eq_true h)

/-- What holds of the single bits and goes through exclusive-or holds of a byte's low `n` bits. -/
theorem setWidth_induction_bits {P : Byte → Prop} (bit : ∀ i : Fin 8, P (BitVec.twoPow 8 i)) (xor : ∀ a b, P a → P b → P (a ^^^ b))
    (b : Byte) (n : Nat) (hn : n ≤ 8) : P ((b.setWidth n).setWidth 8) := by
  induction n with
  | zero =>
    have hzero : (b.setWidth 0).setWidth 8 = BitVec.twoPow 8 0 ^^^ BitVec.twoPow 8 0 := by
      rw [BitVec.of_length_zero (x := b.setWidth 0)]
      rfl
    rw [hzero]
    exact xor _ _ (bit 0) (bit 0)
  | succ n ih =>
    rw [setWidth_succ_eq_xor]
    split
    · exact xor _ _ (ih (by omega)) (bit ⟨n, by omega⟩)
    · exact ih (by omega)

/-- Every byte is an exclusive-or of single bits. -/
theorem byte_induction_bits {P : Byte → Prop} (bit : ∀ i : Fin 8, P (BitVec.twoPow 8 i))
    (xor : ∀ a b, P a → P b → P (a ^^^ b)) (b : Byte) : P b := by
  simpa using setWidth_induction_bits bit xor b 8 (Nat.le_refl 8)

/-- Below bit 7 doubling is the shift alone. -/
theorem xtime_twoPow : ∀ i : Fin 7, xtime (BitVec.twoPow 8 i) = BitVec.twoPow 8 (i + 1) := by
  decide

/-- Every byte is made from 0x01 by doubling and exclusive-or. -/
theorem byte_induction_xtime {P : Byte → Prop} (one : P 0x01#8) (double : ∀ a, P a → P (xtime a))
    (xor : ∀ a b, P a → P b → P (a ^^^ b)) (b : Byte) : P b := by
  have bit : ∀ i, i < 8 → P (BitVec.twoPow 8 i) := by
    intro i hi
    induction i with
    | zero => exact one
    | succ i ih =>
      rw [← xtime_twoPow ⟨i, by omega⟩]
      exact double _ (ih (by omega))
  exact byte_induction_bits (fun i => bit i i.isLt) xor b

/-! The laws of `GFMul` (R112). -/

theorem gfMul_xor_left (a b c : Byte) : gfMul (a ^^^ b) c = gfMul a c ^^^ gfMul b c :=
  gfMulLoop_xor_left 8 0 0x00#8 0x00#8 a b c

theorem gfMul_xor_right (a b c : Byte) : gfMul a (b ^^^ c) = gfMul a b ^^^ gfMul a c :=
  gfMulLoop_xor_right 8 0 0x00#8 0x00#8 a b c

@[simp] theorem gfMul_zero_right (a : Byte) : gfMul a 0x00#8 = 0x00#8 := by
  simpa using gfMul_xor_right a 0x00#8 0x00#8

@[simp] theorem gfMul_one_right (a : Byte) : gfMul a 0x01#8 = a := by
  simp [gfMul, gfMulLoop]

theorem gfMul_xtime_right_bits : ∀ i j : Fin 8,
    gfMul (BitVec.twoPow 8 i) (xtime (BitVec.twoPow 8 j)) = xtime (gfMul (BitVec.twoPow 8 i) (BitVec.twoPow 8 j)) := by
  decide

theorem gfMul_xtime_right (a b : Byte) : gfMul a (xtime b) = xtime (gfMul a b) := by
  induction b using byte_induction_bits with
  | xor b c hb hc => simp only [xtime_xor, gfMul_xor_right, hb, hc]
  | bit i =>
    induction a using byte_induction_bits with
    | xor a c ha hc => simp only [xtime_xor, gfMul_xor_left, ha, hc]
    | bit j => exact gfMul_xtime_right_bits j i

theorem gfMulLoop_xtime_left (n i : Nat) (p a b : Byte) : gfMulLoop n i (xtime p) (xtime a) b = xtime (gfMulLoop n i p a b) := by
  induction n generalizing i p a with
  | zero => rfl
  | succ n ih =>
    simp only [gfMulLoop]
    split
    · rw [← xtime_xor, ih]
    · rw [ih]

theorem gfMul_xtime_left (a b : Byte) : gfMul (xtime a) b = xtime (gfMul a b) :=
  gfMulLoop_xtime_left 8 0 0x00#8 a b

@[simp] theorem gfMul_one_left (a : Byte) : gfMul 0x01#8 a = a := by
  induction a using byte_induction_xtime with
  | one => rfl
  | double a ih => rw [gfMul_xtime_right, ih]
  | xor a b ha hb => rw [gfMul_xor_right, ha, hb]

theorem gfMul_two_right (a : Byte) : gfMul a 0x02#8 = xtime a := by
  rw [show 0x02#8 = xtime 0x01#8 from rfl, gfMul_xtime_right, gfMul_one_right]

theorem gfMul_comm (a b : Byte) : gfMul a b = gfMul b a := by
  induction b using byte_induction_xtime with
  | one => rw [gfMul_one_right, gfMul_one_left]
  | double b ih => rw [gfMul_xtime_right, gfMul_xtime_left, ih]
  | xor b c hb hc => rw [gfMul_xor_right, gfMul_xor_left, hb, hc]

theorem gfMul_assoc (a b c : Byte) : gfMul (gfMul a b) c = gfMul a (gfMul b c) := by
  induction c using byte_induction_xtime with
  | one => rw [gfMul_one_right, gfMul_one_right]
  | double c ih => rw [gfMul_xtime_right, gfMul_xtime_right, gfMul_xtime_right, ih]
  | xor c d hc hd => rw [gfMul_xor_right, gfMul_xor_right, gfMul_xor_right, hc, hd]

/-- A byte has at most one inverse. -/
theorem gfMul_inverse_unique {a b c : Byte} (hb : gfMul a b = 0x01#8) (hc : gfMul a c = 0x01#8) : c = b :=
  calc c = gfMul (gfMul a b) c := by rw [hb, gfMul_one_left]
    _ = gfMul b (gfMul a c) := by rw [gfMul_comm a b, gfMul_assoc]
    _ = b := by rw [hc, gfMul_one_right]

/-! The affine map of `SBOX` and the field inverse (R115). -/

/-- The affine map of R115. -/
def affine (y : Byte) : Byte :=
  y ^^^ y.rotateLeft 1 ^^^ y.rotateLeft 2 ^^^ y.rotateLeft 3 ^^^ y.rotateLeft 4 ^^^ 0x63#8

/-- The inverse of the affine map. -/
def unaffine (z : Byte) : Byte :=
  z.rotateLeft 1 ^^^ z.rotateLeft 3 ^^^ z.rotateLeft 6 ^^^ 0x05#8

theorem affine_unaffine (z : Byte) : affine (unaffine z) = z := by
  revert z
  decide

/-- `inv(b)` of R115, read off the table. -/
def gfInv (b : Byte) : Byte :=
  unaffine (sbox b)

theorem gfInv_zero : gfInv 0x00#8 = 0x00#8 := by decide

theorem gfMul_gfInv {b : Byte} (h : b ≠ 0x00#8) : gfMul b (gfInv b) = 0x01#8 := by
  revert b
  decide

theorem sbox_eq_affine_gfInv (b : Byte) : sbox b = affine (gfInv b) :=
  (affine_unaffine (sbox b)).symm

/-- Settles O14: the loop is linear in both factors, so its laws follow from those of doubling; the inverse is that of `SBOX`. -/
theorem fieldMultiplierLaws : Obligations.FieldMultiplierLaws :=
  ⟨gfMul_comm, gfMul_xor_right, fun a => ⟨gfMul_one_right a, gfMul_zero_right a, gfMul_two_right a⟩,
    fun a ha => ⟨gfInv a, gfMul_gfInv ha, fun _ => gfMul_inverse_unique (gfMul_gfInv ha)⟩⟩

/-- Settles O15: the inverse is the affine map undone on the entry. -/
theorem sboxIsAffineOfInverse : Obligations.SboxIsAffineOfInverse :=
  fun b => ⟨gfInv b, gfMul_gfInv, fun h => h ▸ gfInv_zero, sbox_eq_affine_gfInv b⟩

/-! `INVSBOX` (R116). -/

theorem invSbox_sbox (b : Byte) : invSbox (sbox b) = b := by
  revert b
  decide

/-- A left inverse between finite types of one size is a right inverse. -/
theorem sbox_invSbox (b : Byte) : sbox (invSbox b) = b :=
  Function.LeftInverse.rightInverse_of_card_le invSbox_sbox (Nat.le_refl _) b

/-- Settles O16: one table undoes the other on all 256 bytes, and so the other undoes it. -/
theorem substitutionTablesInverse : Obligations.SubstitutionTablesInverse :=
  fun b => ⟨invSbox_sbox b, sbox_invSbox b⟩

end Sys2Proof.Machine
end

section
/-! PROOF. The block transforms (41_block_transforms.md). -/

namespace Sys2Proof.Machine

/-! The bytewise transforms (R131, R132, R137). -/

@[simp] theorem subBytes_getElem (s : Block) (i : Nat) (h : i < 16) : (subBytes s)[i] = sbox s[i] := by
  simp [subBytes]

@[simp] theorem invSubBytes_getElem (s : Block) (i : Nat) (h : i < 16) : (invSubBytes s)[i] = invSbox s[i] := by
  simp [invSubBytes]

theorem addRoundKey_getElem (s k : Block) (i : Nat) (h : i < 16) : (addRoundKey s k)[i] = s[i] ^^^ k[i] :=
  xorBlock_getElem s k i h

@[simp] theorem invSubBytes_subBytes (s : Block) : invSubBytes (subBytes s) = s :=
  Vector.ext fun i hi => by rw [invSubBytes_getElem, subBytes_getElem, invSbox_sbox]

@[simp] theorem subBytes_invSubBytes (s : Block) : subBytes (invSubBytes s) = s :=
  Vector.ext fun i hi => by rw [subBytes_getElem, invSubBytes_getElem, sbox_invSbox]

@[simp] theorem addRoundKey_addRoundKey (s k : Block) : addRoundKey (addRoundKey s k) k = s :=
  xorBlock_cancel s k

/-- Settles O17: each transform is given by its bytes, the two tables undo each other, and so does an exclusive-or done twice. -/
theorem byteTransformsPointwise : Obligations.ByteTransformsPointwise :=
  ⟨fun s k i => ⟨subBytes_getElem s i i.isLt, invSubBytes_getElem s i i.isLt, addRoundKey_getElem s k i i.isLt⟩,
    fun s k => ⟨invSubBytes_subBytes s, subBytes_invSubBytes s, addRoundKey_addRoundKey s k⟩⟩

/-! The row shifts (R133, R134): each byte comes from one position, and the positions' arithmetic is modulo 4. -/

@[simp] theorem position_mod (r c : Nat) : (position r c).val % 4 = r % 4 := by
  simp only [position]
  omega

@[simp] theorem position_div (r c : Nat) : (position r c).val / 4 = c % 4 := by
  simp only [position]
  omega

theorem position_val (r c : Nat) : (position r c).val = r % 4 + 4 * (c % 4) := rfl

theorem shiftRows_getElem (s : Block) (i : Nat) (h : i < 16) :
    (shiftRows s)[i] = s[(position (i % 4) (i / 4 + i % 4)).val] := by
  simp [shiftRows]

theorem invShiftRows_getElem (s : Block) (i : Nat) (h : i < 16) :
    (invShiftRows s)[i] = s[(position (i % 4) (i / 4 + 4 - i % 4)).val] := by
  simp [invShiftRows]

/-- The table `P` of R133. -/
theorem shiftRows_eq (s : Block) : shiftRows s =
    #v[s[0], s[5], s[10], s[15], s[4], s[9], s[14], s[3], s[8], s[13], s[2], s[7], s[12], s[1], s[6], s[11]] :=
  Vector.ext fun i hi => by
    rw [shiftRows_getElem]
    interval_cases i <;> rfl

/-- The table `Q` of R134. -/
theorem invShiftRows_eq (s : Block) : invShiftRows s =
    #v[s[0], s[13], s[10], s[7], s[4], s[1], s[14], s[11], s[8], s[5], s[2], s[15], s[12], s[9], s[6], s[3]] :=
  Vector.ext fun i hi => by
    rw [invShiftRows_getElem]
    interval_cases i <;> rfl

@[simp] theorem invShiftRows_shiftRows (s : Block) : invShiftRows (shiftRows s) = s :=
  Vector.ext fun i hi => by
    rw [invShiftRows_getElem, shiftRows_getElem]
    simp only [position_mod, position_div]
    congr 1
    rw [position_val]
    omega

@[simp] theorem shiftRows_invShiftRows (s : Block) : shiftRows (invShiftRows s) = s :=
  Vector.ext fun i hi => by
    rw [shiftRows_getElem, invShiftRows_getElem]
    simp only [position_mod, position_div]
    congr 1
    rw [position_val]
    omega

theorem shiftRows_subBytes (s : Block) : shiftRows (subBytes s) = subBytes (shiftRows s) :=
  Vector.ext fun i hi => by rw [shiftRows_getElem, subBytes_getElem, subBytes_getElem, shiftRows_getElem]

theorem invShiftRows_invSubBytes (s : Block) : invShiftRows (invSubBytes s) = invSubBytes (invShiftRows s) :=
  Vector.ext fun i hi => by rw [invShiftRows_getElem, invSubBytes_getElem, invSubBytes_getElem, invShiftRows_getElem]

/-- Settles O18: the positions are the printed tables, one shift undoes the other modulo 4, and a byte is substituted the same
wherever it stands. -/
theorem shiftRowsPermutations : Obligations.ShiftRowsPermutations :=
  fun s => ⟨shiftRows_eq s, invShiftRows_eq s, invShiftRows_shiftRows s, shiftRows_invShiftRows s,
    invShiftRows_invSubBytes s, shiftRows_subBytes s⟩

/-! The column products (R135, R136). -/

/-- A row of four bytes times column `c` of a block. -/
def rowProduct (row : Nat → Byte) (s : Block) (c : Fin 4) : Byte :=
  gfMul (row 0) s[4 * c.val] ^^^ gfMul (row 1) s[4 * c.val + 1] ^^^ gfMul (row 2) s[4 * c.val + 2] ^^^
    gfMul (row 3) s[4 * c.val + 3]

/-- Row `r` of column `c` of a product is row `r` of the matrix times column `c`. -/
theorem mixWith_getElem (m : Word) (s : Block) (c : Fin 4) (r : Nat) (hr : r < 4) :
    (mixWith m s)[4 * c.val + r] = rowProduct (circulant m r) s c := by
  have hrow : (4 * c.val + r) % 4 = r := by omega
  have hcol : (4 * c.val + r) / 4 = c.val := by omega
  simp [mixWith, rowProduct, hrow, hcol, position, Nat.mod_eq_of_lt c.isLt, Nat.add_comm _ (4 * c.val)]

theorem mixColumns_getElem (s : Block) (c : Fin 4) (r : Nat) (hr : r < 4) :
    (mixColumns s)[4 * c.val + r] = rowProduct (circulant mixRow r) s c :=
  mixWith_getElem mixRow s c r hr

theorem invMixColumns_getElem (s : Block) (c : Fin 4) (r : Nat) (hr : r < 4) :
    (invMixColumns s)[4 * c.val + r] = rowProduct (circulant invMixRow r) s c :=
  mixWith_getElem invMixRow s c r hr

/-- Settles O19: row `r` of each product is the printed row of the matrix times the column. -/
theorem mixColumnsMatrices : Obligations.MixColumnsMatrices := by
  rintro s c _ _ _ _ rfl rfl rfl rfl
  have mix := mixColumns_getElem s c
  have inv := invMixColumns_getElem s c
  refine ⟨?_, ?_, ?_, ?_, inv 0 (by decide), inv 1 (by decide), inv 2 (by decide), inv 3 (by decide)⟩
  · simpa [rowProduct, circulant, mixRow] using mix 0 (by decide)
  · simpa [rowProduct, circulant, mixRow] using mix 1 (by decide)
  · simpa [rowProduct, circulant, mixRow] using mix 2 (by decide)
  · simpa [rowProduct, circulant, mixRow] using mix 3 (by decide)

/-- Blocks with the same columns are the same. -/
theorem Block.ext_columns {s t : Block} (h : ∀ (c r : Fin 4), s[4 * c.val + r.val] = t[4 * c.val + r.val]) : s = t :=
  Vector.ext fun i hi => by
    have hi4 : 4 * (i / 4) + i % 4 = i := by omega
    simpa only [hi4] using h ⟨i / 4, by omega⟩ ⟨i % 4, by omega⟩

theorem rowProduct_xorBlock (row : Nat → Byte) (s k : Block) (c : Fin 4) :
    rowProduct row (xorBlock s k) c = rowProduct row s c ^^^ rowProduct row k c := by
  simp only [rowProduct, xorBlock_getElem, gfMul_xor_right]
  ac_rfl

theorem mixWith_xorBlock (m : Word) (s k : Block) : mixWith m (xorBlock s k) = xorBlock (mixWith m s) (mixWith m k) :=
  Block.ext_columns fun c r => by
    simp only [xorBlock_getElem, mixWith_getElem _ _ _ _ r.isLt, rowProduct_xorBlock]

/-- A row times a circulant matrix. -/
def rowTimes (row : Nat → Byte) (n : Word) (j : Nat) : Byte :=
  gfMul (row 0) (circulant n 0 j) ^^^ gfMul (row 1) (circulant n 1 j) ^^^ gfMul (row 2) (circulant n 2 j) ^^^
    gfMul (row 3) (circulant n 3 j)

/-- The matrix product is associative: the row may meet the matrix first. -/
theorem rowProduct_mixWith (row : Nat → Byte) (n : Word) (s : Block) (c : Fin 4) :
    rowProduct row (mixWith n s) c = rowProduct (rowTimes row n) s c := by
  have h0 := mixWith_getElem n s c 0 (by decide)
  rw [rowProduct]
  simp only [Nat.add_zero] at h0
  rw [h0, mixWith_getElem n s c 1 (by decide), mixWith_getElem n s c 2 (by decide), mixWith_getElem n s c 3 (by decide)]
  simp only [rowProduct, rowTimes, gfMul_xor_right, gfMul_xor_left, gfMul_assoc]
  ac_rfl

@[simp] theorem gfMul_zero_left (a : Byte) : gfMul 0x00#8 a = 0x00#8 := by
  rw [gfMul_comm, gfMul_zero_right]

/-- Row `r` of the identity matrix picks row `r` of the column. -/
theorem rowProduct_of_unit {row : Nat → Byte} {r : Fin 4} (h : ∀ j : Fin 4, row j = if r = j then 0x01#8 else 0x00#8)
    (s : Block) (c : Fin 4) : rowProduct row s c = s[4 * c.val + r.val] := by
  have h0 : row 0 = _ := h 0
  have h1 : row 1 = _ := h 1
  have h2 : row 2 = _ := h 2
  have h3 : row 3 = _ := h 3
  rw [rowProduct, h0, h1, h2, h3]
  fin_cases r <;> simp

/-- Circulant matrices whose product is the identity undo each other. -/
theorem mixWith_mixWith_of_unit {m n : Word}
    (h : ∀ r j : Fin 4, rowTimes (circulant m r) n j = if r = j then 0x01#8 else 0x00#8) (s : Block) :
    mixWith m (mixWith n s) = s :=
  Block.ext_columns fun c r => by
    rw [mixWith_getElem _ _ _ _ r.isLt, rowProduct_mixWith, rowProduct_of_unit (h r)]

theorem invMixColumns_mixColumns (s : Block) : invMixColumns (mixColumns s) = s :=
  mixWith_mixWith_of_unit (by decide) s

theorem mixColumns_invMixColumns (s : Block) : mixColumns (invMixColumns s) = s :=
  mixWith_mixWith_of_unit (by decide) s

/-- Settles O20: the product of the two matrices is the identity in either order, and a matrix product is linear. -/
theorem mixColumnsInverse : Obligations.MixColumnsInverse :=
  ⟨fun s => ⟨invMixColumns_mixColumns s, mixColumns_invMixColumns s⟩, mixWith_xorBlock invMixRow⟩

end Sys2Proof.Machine
end

section
/-! PROOF. The key schedule (42_key_schedule.md): the round constants, the words and round keys of a schedule, and what `EXPAND`
writes and leaves unchanged. -/

namespace Sys2Proof.Machine

/-! The round constants (R152). -/

/-- Settles O21: the index is one more than the number of doublings. -/
theorem roundConstants : Obligations.RoundConstants := by
  refine ⟨rfl, fun i hi => ?_, by decide⟩
  obtain ⟨k, rfl⟩ := Nat.exists_eq_add_of_le' hi
  rfl

/-! The words of a schedule (R154): the key, then each word from the two before it. -/

theorem length_scheduleWords {nk nr : Nat} (h : nk ≤ 4 * (nr + 1)) (key : Bytes) :
    (scheduleWords nk nr key).length = 4 * (nr + 1) := by
  rw [scheduleWords, length_growWords, List.length_map, List.length_range, Nat.add_sub_cancel' h]

theorem wordAt_scheduleWords_seed {nk j : Nat} (h : j < nk) (nr : Nat) (key : Bytes) :
    wordAt (scheduleWords nk nr key) j = keyWord key j := by
  rw [scheduleWords, growWords_old _ _ _ _ (by simpa using h), wordAt, List.getD_eq_getElem _ _ (by simpa using h)]
  simp

theorem wordAt_scheduleWords_next {nk nr j : Nat} (hnk : 0 < nk) (h : nk ≤ j) (hj : j < 4 * (nr + 1)) (key : Bytes) :
    wordAt (scheduleWords nk nr key) j =
      xorWord (wordAt (scheduleWords nk nr key) (j - nk)) (chainWord nk j (wordAt (scheduleWords nk nr key) (j - 1))) :=
  growWords_new _ _ _ _ hnk (by simp) (by simpa using h) (by simp; omega)

/-- The step at a multiple of `Nk`, byte by byte: rotated, substituted, and the round constant on the first byte only. -/
theorem addRcon_subWord_rotWord (t : Word) (i : Nat) :
    addRcon (subWord (rotWord t)) i = #v[sbox t[1] ^^^ rcon i, sbox t[2], sbox t[3], sbox t[0]] := rfl

/-- Below the key's length a byte of the key is a byte of the word it lies in. -/
theorem getElem?_keyWord {key : Bytes} {j : Nat} {i : Fin 4} (h : 4 * j + i.val < key.length) :
    key[4 * j + i.val]? = some (keyWord key j)[i] := by
  simp [keyWord, h]

theorem roundKey_getElem (w : List Word) (k : Nat) (c i : Fin 4) :
    (roundKey w k)[4 * c.val + i.val] = (wordAt w (4 * k + c.val))[i] := by
  have hc : (4 * c.val + i.val) / 4 = c.val := by omega
  have hi : (4 * c.val + i.val) % 4 = i.val := by omega
  simp [roundKey, hc, hi]

/-- Settles O22: the seed and the recurrence of the words, with `chainWord` byte by byte, and the round keys. -/
theorem scheduleFollowsRecurrence : Obligations.ScheduleFollowsRecurrence := by
  intro nk key hnk hkey
  refine ⟨length_scheduleWords (by omega) key, fun j i hj => ?_, fun j t hnkj hj ht => ?_,
    fun k c i _ => roundKey_getElem _ k c i⟩
  · rw [wordAt_scheduleWords_seed hj]
    exact getElem?_keyWord (by omega)
  · subst ht
    rw [wordAt_scheduleWords_next (by omega) hnkj hj key, chainWord, addRcon_subWord_rotWord, subWord]

/-! `EXPAND` (R157). -/

theorem expandKey_getElem_of_le {nk nr : Nat} {k : Fin 15} (h : k.val ≤ nr) (key : Bytes) :
    (expandKey nk nr key)[k] = roundKey (scheduleWords nk nr key) k.val := by
  simp [expandKey, h]

theorem expandKey_getElem_of_lt {nk nr : Nat} {k : Fin 15} (h : nr < k.val) (key : Bytes) :
    (expandKey nk nr key)[k] = zeroBlock := by
  simp [expandKey, Nat.not_le.2 h]

/-- Settles O23: the two ends of `EXPAND`, told apart by whether the key length has parameters. -/
theorem expandCommand : Obligations.ExpandCommand := by
  rintro s n rfl
  refine ⟨fun hlegal => ?_, fun hillegal => ?_⟩
  · exact ⟨_, exec_expand_of_params_some (if_pos hlegal), fun _ hk => expandKey_getElem_of_le hk _,
      fun _ hk => expandKey_getElem_of_lt hk _⟩
  · exact exec_expand_of_params_none (if_neg hillegal)

/-- All that `EXPAND` can do: it replaces the schedule with its descriptors, and `ERR`. -/
theorem exec_expand_shape (s : State) : ∃ rk nk nr rkcnt code,
    exec .expand s = .next { setSchedule rk nk nr rkcnt s with err := code } := by
  cases h : params s.keylen.toNat with
  | none => exact ⟨_, _, _, _, _, exec_expand_of_params_none h⟩
  | some p => exact ⟨_, _, _, _, _, exec_expand_of_params_some h⟩

/-- Settles O44: the schedule, its descriptors and `ERR` are all that `EXPAND` replaces. -/
theorem expandFrame : Obligations.ExpandFrame := by
  intro s t ht
  obtain ⟨rk, nk, nr, rkcnt, code, hexec⟩ := exec_expand_shape s
  cases hexec.symm.trans ht
  exact ⟨rfl, rfl, rfl, rfl, rfl, rfl, rfl, rfl, rfl, rfl, fun _ => ⟨rfl, rfl⟩, rfl, rfl⟩

end Sys2Proof.Machine
end

section
/-! PROOF. The block cipher (43_block_cipher.md): its rounds as a sequence, encryption and decryption undoing each other, the raw
single-block commands, and the operations that run them under a schedule held (30_encoding.md R100). -/

namespace Sys2Proof.Machine

/-! The rounds as a sequence (R170, R171). -/

@[simp] theorem length_middleKeys (rk : RoundKeys) (nr : Fin 15) : (middleKeys rk nr).length = nr.val - 1 := by
  simp only [middleKeys, List.length_drop, List.length_take, Vector.length_toList]
  omega

theorem getElem_middleKeys (rk : RoundKeys) (nr : Fin 15) (i : Nat) (h : i < (middleKeys rk nr).length) :
    (middleKeys rk nr)[i] = rk[i + 1]'(by rw [length_middleKeys] at h; omega) := by
  simp [middleKeys]

/-- The State after the first `r` of a list of rounds, one round key for each. -/
def afterRounds (round : Block → Block → Block) (keys : List Block) (s : Block) (r : Nat) : Block :=
  (keys.take r).foldl round s

theorem afterRounds_succ (round : Block → Block → Block) (keys : List Block) (s : Block) {r : Nat} (h : r < keys.length) :
    afterRounds round keys s (r + 1) = round (afterRounds round keys s r) keys[r] := by
  rw [afterRounds, List.take_succ_eq_append_getElem h, List.foldl_concat, afterRounds]

theorem afterRounds_of_length {keys : List Block} {n : Nat} (h : keys.length = n) (round : Block → Block → Block) (s : Block) :
    afterRounds round keys s n = keys.foldl round s := by
  rw [afterRounds, ← h, List.take_length]

/-- Settles O24: the sequence is the State after each middle round. -/
theorem encryptBlockRounds : Obligations.EncryptBlockRounds := by
  intro rk nr b
  refine ⟨afterRounds encRound (middleKeys rk nr) (addRoundKey b rk[0]), rfl, fun r _ hr hlt => ?_, ?_⟩
  · obtain ⟨k, rfl⟩ := Nat.exists_eq_add_of_le' hr
    rw [afterRounds_succ _ _ _ (by rw [length_middleKeys]; omega), getElem_middleKeys]
    rfl
  · rw [afterRounds_of_length (length_middleKeys rk nr), encryptBlock]

/-- Settles O25: the sequence is the State after each middle round, and round `r` counted from the last key takes key `NR - r`. -/
theorem decryptBlockRounds : Obligations.DecryptBlockRounds := by
  intro rk nr b
  have hlen : (middleKeys rk nr).reverse.length = nr.val - 1 := by rw [List.length_reverse, length_middleKeys]
  refine ⟨afterRounds decRound (middleKeys rk nr).reverse (addRoundKey b rk[nr]), rfl, fun r hr hlt => ?_, ?_⟩
  · obtain ⟨k, rfl⟩ := Nat.exists_eq_add_of_le' hr
    have hkey : nr.val - 1 - 1 - k + 1 = nr.val - (k + 1) := by omega
    rw [afterRounds_succ _ _ _ (by omega), List.getElem_reverse, getElem_middleKeys]
    simp only [length_middleKeys, hkey]
    rfl
  · rw [afterRounds_of_length hlen, decryptBlock]

/-! Encryption and decryption undo each other (R175). A round of one undoes a round of the other only between the SubBytes and
ShiftRows of two neighbouring rounds, so the induction over the round keys carries that half round along. -/

/-- The half round before MixColumns, and the last round without its key. -/
def substShift (s : Block) : Block :=
  shiftRows (subBytes s)

/-- The half round of decryption that undoes it. -/
def invSubstShift (s : Block) : Block :=
  invSubBytes (invShiftRows s)

@[simp] theorem invSubstShift_substShift (s : Block) : invSubstShift (substShift s) = s := by
  rw [invSubstShift, substShift, invShiftRows_shiftRows, invSubBytes_subBytes]

@[simp] theorem substShift_invSubstShift (s : Block) : substShift (invSubstShift s) = s := by
  rw [substShift, invSubstShift, subBytes_invSubBytes, shiftRows_invShiftRows]

theorem encRound_eq (s k : Block) : encRound s k = addRoundKey (mixColumns (substShift s)) k := rfl

theorem decRound_eq (s k : Block) : decRound s k = invMixColumns (addRoundKey (invSubstShift s) k) := rfl

theorem encryptBlock_eq (rk : RoundKeys) (nr : Fin 15) (b : Block) : encryptBlock rk nr b =
    addRoundKey (substShift ((middleKeys rk nr).foldl encRound (addRoundKey b rk[0]))) rk[nr] := rfl

theorem decryptBlock_eq (rk : RoundKeys) (nr : Fin 15) (b : Block) : decryptBlock rk nr b =
    addRoundKey (invSubstShift ((middleKeys rk nr).reverse.foldl decRound (addRoundKey b rk[nr]))) rk[0] := rfl

theorem decRound_substShift_encRound (s k : Block) : decRound (substShift (encRound s k)) k = substShift s := by
  rw [decRound_eq, invSubstShift_substShift, encRound_eq, addRoundKey_addRoundKey, invMixColumns_mixColumns]

theorem encRound_invSubstShift_decRound (s k : Block) : encRound (invSubstShift (decRound s k)) k = invSubstShift s := by
  rw [encRound_eq, substShift_invSubstShift, decRound_eq, mixColumns_invMixColumns, addRoundKey_addRoundKey]

/-- Decryption's rounds with the keys last first undo encryption's. -/
theorem foldl_decRound_foldl_encRound (keys : List Block) (s : Block) :
    keys.reverse.foldl decRound (substShift (keys.foldl encRound s)) = substShift s := by
  induction keys generalizing s with
  | nil => rfl
  | cons k keys ih =>
    rw [List.foldl_cons, List.reverse_cons, List.foldl_concat, ih, decRound_substShift_encRound]

/-- Encryption's rounds undo decryption's with the keys last first. -/
theorem foldl_encRound_foldl_decRound (keys : List Block) (s : Block) :
    keys.foldl encRound (invSubstShift (keys.reverse.foldl decRound s)) = invSubstShift s := by
  induction keys with
  | nil => rfl
  | cons k keys ih =>
    rw [List.reverse_cons, List.foldl_concat, List.foldl_cons, encRound_invSubstShift_decRound, ih]

theorem decryptBlock_encryptBlock (rk : RoundKeys) (nr : Fin 15) (b : Block) :
    decryptBlock rk nr (encryptBlock rk nr b) = b := by
  rw [decryptBlock_eq, encryptBlock_eq, addRoundKey_addRoundKey, foldl_decRound_foldl_encRound, invSubstShift_substShift,
    addRoundKey_addRoundKey]

theorem encryptBlock_decryptBlock (rk : RoundKeys) (nr : Fin 15) (b : Block) :
    encryptBlock rk nr (decryptBlock rk nr b) = b := by
  rw [encryptBlock_eq, decryptBlock_eq, addRoundKey_addRoundKey, foldl_encRound_foldl_decRound, substShift_invSubstShift,
    addRoundKey_addRoundKey]

/-- Settles O26: the middle rounds undo each other key by key, and the two outer keys cancel. -/
theorem blockCipherRoundTrip : Obligations.BlockCipherRoundTrip :=
  fun rk nr b => ⟨decryptBlock_encryptBlock rk nr b, encryptBlock_decryptBlock rk nr b⟩

/-- Settles O27: the one block is computed. -/
theorem knownAnswer : Obligations.KnownAnswer := by
  unfold Obligations.KnownAnswer
  decide +kernel

/-! The raw single-block commands (R173, R174). -/

theorem isData_of_isRaw {i : Instr} (hi : i.isRaw = true) : i.isData = true := by
  rw [Instr.isData, hi, Bool.true_or]

theorem dataCheck_of_isRaw {i : Instr} (hi : i.isRaw = true) : dataCheck i = rawBlockCheck :=
  if_pos hi

theorem rawBlockCheck_of_not_held {s : State} (h : s.rkcnt.toNat ≠ s.nr.toNat + 1) :
    rawBlockCheck s = some .invalidKeySchedule :=
  if_pos (scheduleHeld_eq_false.2 h)

theorem rawBlockCheck_of_len_ne {s : State} (h : s.rkcnt.toNat = s.nr.toNat + 1) (hlen : s.len.toNat ≠ 16) :
    rawBlockCheck s = some .invalidBlockSize := by
  rw [rawBlockCheck, if_neg (by rw [scheduleHeld_eq_true.2 h]; decide), if_pos hlen]

/-- A data command whose check fails zeroes the output and gives the code (R35, R249). -/
theorem exec_data_of_error {i : Instr} (hi : i.isData = true) {s : State} {e : ErrorKind} (h : dataCheck i s = some e) :
    exec i s = .next { s with dout := [], olen := 0#32, err := e.code } := by
  rw [exec_data hi, runData_of_error (by rw [dataCheck_clearOutput, h])]
  rfl

/-- What a raw command makes of a block under the schedule held. -/
def State.rawCipher (s : State) (i : Instr) : Block → Block :=
  if i = .decblk then s.decrypts else s.encrypts

theorem toBlock_readBytes (m : Memory) : toBlock (m.readBytes 0 16) = readBlock m 0 :=
  Vector.ext fun i hi => by
    rw [toBlock_getElem _ _ hi, List.getD_eq_getElem _ _ (by rwa [Memory.length_readBytes]), Memory.getElem_readBytes,
      readBlock_getElem _ _ _ hi]

/-- The block operation of a raw command, on `DIN[0..15]`. -/
theorem dataRun_raw {i : Instr} (hi : i.isRaw = true) (s : State) : dataRun i s.lastRound (clearOutput s) =
    ⟨s.rawCipher i (readBlock s.din 0), s.cv, (s.rawCipher i (readBlock s.din 0)).toList⟩ := by
  rw [← toBlock_readBytes]
  cases i with
  | encblk | decblk => rfl
  | _ => cases hi

/-- All that a raw command does on a keyed core with `LEN = 16`. -/
theorem exec_raw_ready {i : Instr} (hi : i.isRaw = true) {s : State} (hk : s.Keyed) (hlen : s.len.toNat = 16) :
    exec i s = .next { s with
      st := s.rawCipher i (readBlock s.din 0)
      dout := Memory.writeBytes [] 0 (s.rawCipher i (readBlock s.din 0)).toList, olen := 16#32, err := 0#8 } := by
  have hready : s.Ready i ∧ i.wholeBlocks = false := by
    cases i with
    | encblk | decblk => simp [State.Ready, Instr.isMode, Instr.needsIv, Instr.wholeBlocks, hlen]
    | _ => cases hi
  rw [exec_ready_plain (isData_of_isRaw hi) hready.2 hk hready.1 (dataRun_raw hi s), Vector.length_toList]

theorem readBlock_writeBytes_toList (c : Block) : readBlock (Memory.writeBytes [] 0 c.toList) 0 = c := by
  simpa using readBlock_unblocks [c] 0 Nat.one_pos

/-- Settles O28: the two checks in their order, and the block operation behind them. -/
theorem rawBlockCommands : Obligations.RawBlockCommands := by
  intro s i c hic
  obtain ⟨hi, rfl⟩ : i.isRaw = true ∧ c = s.rawCipher i (readBlock s.din 0) := by
    rcases hic with ⟨rfl, rfl⟩ | ⟨rfl, rfl⟩ <;> exact ⟨rfl, rfl⟩
  have herr {e : ErrorKind} (h : rawBlockCheck s = some e) :=
    exec_data_of_error (isData_of_isRaw hi) (s := s) (e := e) (by rw [dataCheck_of_isRaw hi, h])
  refine ⟨fun h => herr (rawBlockCheck_of_not_held h), fun h hlen => herr (rawBlockCheck_of_len_ne h hlen), fun hk hlen => ?_⟩
  exact ⟨_, exec_raw_ready hi hk hlen, readBlock_writeBytes_toList _,
    fun a ha => read_above _ a (by rwa [Vector.length_toList])⟩

/-! `SETDATA; <command>; GETERR; GETOUT` with a schedule held, and `CLEAR` (R100). -/

theorem runScript_command (i : Instr) (s : State) : runScript [command i] s = exec i s := by
  rw [runScript_cons, hostEvent_command]
  cases exec i s <;> rfl

/-- The state that `SETDATA x` leaves. -/
def State.withData (x : Bytes) (s : State) : State :=
  { s with din := s.din.writeBytes 0 (x.take Config.maxLen), len := BitVec.ofNat 32 x.length }

theorem callHeld_none_of_next {i : Instr} {x : Bytes} {s t : State} (h : exec i (s.withData x) = .next t) :
    callHeld i none x s = if t.err = 0x00#8 then getOut { t with reads := t.reads ++ [t.err] }
      else .next ({ t with reads := t.reads ++ [t.err] }, .error t.err) := by
  refine checked_next ?_
  rw [loadIv, List.nil_append, runScript_append, runScript_setData, thenRun_next, runScript_command]
  exact h

/-- The host reads back the output that a data command wrote. -/
theorem map_portRead_dout {s : State} {out : Bytes} (h : s.dout = Memory.writeBytes [] 0 out)
    (hout : out.length ≤ Config.maxLen + 16) :
    ((List.range out.length).map fun a => portRead 2#2 (BitVec.ofNat 32 a) s) = out := by
  refine List.ext_getElem (by simp) fun a ha ha' => ?_
  rw [List.getElem_map, List.getElem_range, portRead_dout, Config.toNat_ofNat (by omega), if_pos (by omega), h,
    Memory.read_writeBytes_nil, List.getD_eq_getElem _ _ ha']

/-- `GETOUT` gives the output that a data command wrote. -/
theorem getOut_of_output {s : State} {out : Bytes} (hdout : s.dout = Memory.writeBytes [] 0 out)
    (holen : s.olen.toNat = out.length) (hout : out.length ≤ Config.maxLen + 16) :
    ∃ t, getOut s = .next (t, .output out) ∧ t = { s with reads := t.reads } := by
  obtain ⟨t, hget, ht⟩ := getOut_eq s
  rw [holen, map_portRead_dout hdout hout] at hget
  exact ⟨t, hget, ht⟩

/-- A command that ends well gives the caller of its operation the output it wrote. -/
theorem callHeld_none_of_output {i : Instr} {x out : Bytes} {s t : State} (h : exec i (s.withData x) = .next t)
    (herr : t.err = 0x00#8) (hdout : t.dout = Memory.writeBytes [] 0 out) (holen : t.olen.toNat = out.length)
    (hout : out.length ≤ Config.maxLen + 16) :
    ∃ u, callHeld i none x s = .next (u, .output out) ∧ u = { t with reads := u.reads } := by
  rw [callHeld_none_of_next h, if_pos herr]
  exact getOut_of_output hdout holen hout

/-- A block stored by `SETDATA` is the one that a raw command reads: every `MAXLEN` has room for it. -/
theorem readBlock_withData {s : State} (hwf : s.din.wf) {x : Bytes} (hx : x.length = 16) :
    readBlock (s.withData x).din 0 = toBlock x :=
  Vector.ext fun i hi => by
    have hmax := Config.sixteen_le_maxLen
    rw [readBlock_getElem _ _ _ hi, toBlock_getElem _ _ hi, State.withData, read_writeBytes_take hwf, if_pos (by omega),
      Nat.mul_zero, Nat.zero_add, List.getD_eq_getElem _ _ (by omega), List.getD_eq_getElem _ _ (by omega)]

/-- With a schedule held a raw operation gives its caller the block operation's result and keeps the schedule. -/
theorem callHeld_raw_of_keyed {i : Instr} (hi : i.isRaw = true) {s : State} (hwf : s.din.wf) (hk : s.Keyed) {x : Bytes}
    (hx : x.length = 16) :
    ∃ t, callHeld i none x s = .next (t, .output (s.rawCipher i (toBlock x)).toList) ∧
      t.rk = s.rk ∧ t.nk = s.nk ∧ t.nr = s.nr ∧ t.rkcnt = s.rkcnt := by
  have hlen : (s.withData x).len.toNat = 16 := by rw [State.withData, hx]; rfl
  have hexec := exec_raw_ready hi (s := s.withData x) hk hlen
  rw [readBlock_withData hwf hx] at hexec
  obtain ⟨t, hcall, ht⟩ := callHeld_none_of_output hexec rfl rfl Vector.length_toList.symm (by simp)
  exact ⟨t, hcall, by rw [ht]; exact ⟨rfl, rfl, rfl, rfl⟩⟩

/-- With none held it gives InvalidKeySchedule. -/
theorem callHeld_raw_of_not_held {i : Instr} (hi : i.isRaw = true) {s : State} (h : s.rkcnt.toNat ≠ s.nr.toNat + 1)
    (x : Bytes) : ∃ t, callHeld i none x s = .next (t, .error 5#8) := by
  have hcheck : dataCheck i (s.withData x) = some .invalidKeySchedule := by
    rw [dataCheck_of_isRaw hi]
    exact rawBlockCheck_of_not_held h
  exact ⟨_, callHeld_none_of_next (exec_data_of_error (isData_of_isRaw hi) hcheck)⟩

theorem secureErase_eq (s : State) : secureErase s = .next (zeroCore s) := by
  rw [secureErase, runScript_command, exec_clear]

/-- Settles O59: the two operations are the raw commands on the block that `SETDATA` stored, and the erase is `CLEAR`. -/
theorem operationsWithoutAKey : Obligations.OperationsWithoutAKey := by
  refine ⟨fun s x hwf hx => ⟨fun hk => ⟨?_, ?_⟩, fun h => ⟨?_, ?_⟩⟩, secureErase_eq⟩
  · exact callHeld_raw_of_keyed (i := .encblk) rfl hwf hk hx
  · exact callHeld_raw_of_keyed (i := .decblk) rfl hwf hk hx
  · exact callHeld_raw_of_not_held (i := .encblk) rfl h x
  · exact callHeld_raw_of_not_held (i := .decblk) rfl h x

end Sys2Proof.Machine
end

section
/-! PROOF. The mode controller's checks, padding and counter (44_modes.md R191 to R195), and the frame of the data commands
(44_modes.md R211). -/

namespace Sys2Proof.Machine

/-! The checks (R195): each of the four as the first that fails. -/

theorem isData_of_isMode {i : Instr} (hi : i.isMode = true) : i.isData = true := by
  rw [Instr.isData, hi, Bool.or_true]

theorem isRaw_of_isMode {i : Instr} (hi : i.isMode = true) : i.isRaw = false := by
  cases i with
  | encblk | decblk => cases hi
  | _ => rfl

theorem dataCheck_of_isMode {i : Instr} (hi : i.isMode = true) : dataCheck i = modeCheck i.needsIv i.wholeBlocks := by
  rw [dataCheck, if_neg (by simp [isRaw_of_isMode hi])]

section
variable {b c : Bool} {s : State}

theorem modeCheck_of_not_held (h : s.rkcnt.toNat ≠ s.nr.toNat + 1) : modeCheck b c s = some .invalidKeySchedule :=
  if_pos (scheduleHeld_eq_false.2 h)

theorem modeCheck_of_ivlen_ne (h : s.rkcnt.toNat = s.nr.toNat + 1) (hb : b = true) (hiv : s.ivlen.toNat ≠ 16) :
    modeCheck b c s = some .invalidIV := by
  simp [modeCheck, scheduleHeld_eq_true.2 h, hb, hiv]

theorem modeCheck_of_len_gt (h : s.rkcnt.toNat = s.nr.toNat + 1) (hiv : b = true → s.ivlen.toNat = 16)
    (hlen : Config.maxLen < s.len.toNat) : modeCheck b c s = some .lengthOverflow := by
  have hnot : ¬ (b = true ∧ s.ivlen.toNat ≠ 16) := fun hand => hand.2 (hiv hand.1)
  simp only [modeCheck, scheduleHeld_eq_true.2 h, Bool.true_eq_false, if_false, if_neg hnot, if_pos hlen, gt_iff_lt]

theorem modeCheck_of_partial_block (h : s.rkcnt.toNat = s.nr.toNat + 1) (hiv : b = true → s.ivlen.toNat = 16)
    (hlen : s.len.toNat ≤ Config.maxLen) (hc : c = true) (hmod : s.len.toNat % 16 ≠ 0) :
    modeCheck b c s = some .invalidBlockSize := by
  have hnot : ¬ (b = true ∧ s.ivlen.toNat ≠ 16) := fun hand => hand.2 (hiv hand.1)
  simp only [modeCheck, scheduleHeld_eq_true.2 h, Bool.true_eq_false, if_false, if_neg hnot, gt_iff_lt, if_neg hlen.not_gt,
    if_pos (And.intro hc hmod)]

end

/-- Settles O29: the first failing check of a mode command is the error it ends with. -/
theorem modeCommandChecks : Obligations.ModeCommandChecks := by
  intro s i hi
  have herr {e : ErrorKind} (h : modeCheck i.needsIv i.wholeBlocks s = some e) :=
    exec_data_of_error (isData_of_isMode hi) (s := s) (e := e) (by rw [dataCheck_of_isMode hi, h])
  exact ⟨fun h => herr (modeCheck_of_not_held h), fun h hb hiv => herr (modeCheck_of_ivlen_ne h hb hiv),
    fun h hiv hlen => herr (modeCheck_of_len_gt h hiv hlen),
    fun h hiv hlen hc hmod => herr (modeCheck_of_partial_block h hiv hlen hc hmod)⟩

/-- Whether it ends in an error or well, a data command writes only `S`, `CV`, the output and `ERR`. -/
theorem exec_data_writes {i : Instr} (hi : i.isData = true) {s t : State} (h : exec i s = .next t) :
    ∃ st cv dout olen err, t = { s with st := st, cv := cv, dout := dout, olen := olen, err := err } ∧
      (i.needsIv = false → cv = s.cv) := by
  rcases exec_data_next hi h with ⟨e, -, ht⟩ | ⟨-, -, st, cv, out, ht | ⟨-, ht⟩, hcv⟩
  · exact ⟨s.st, s.cv, _, _, _, ht, fun _ => rfl⟩
  · exact ⟨st, cv, _, _, _, ht, hcv⟩
  · exact ⟨st, cv, _, _, _, ht, hcv⟩

/-- Settles O43: none of these elements is among those that a data command writes. -/
theorem dataCommandFrame : Obligations.DataCommandFrame := by
  intro s t i hi ht
  obtain ⟨st, cv, dout, olen, err, rfl, hcv⟩ := exec_data_writes hi ht
  exact ⟨rfl, rfl, rfl, rfl, rfl, rfl, rfl, rfl, rfl, rfl, fun _ => rfl, rfl, rfl, hcv⟩

/-! Padding (R191, R192). -/

theorem padByte_toNat {n : Nat} (hn : n ≤ 16) : (BitVec.ofNat 8 n).toNat = n :=
  Nat.mod_eq_of_lt (by omega)

/-- What `Unpad` does with a sequence whose last byte is `b`. -/
theorem unpad_of_getLast {d : Bytes} {b : Byte} (h : d.getLast? = some b) :
    unpad d = if b.toNat < 1 ∨ b.toNat > 16 then none
      else if (d.drop (d.length - b.toNat)).all (· == b) then some (d.take (d.length - b.toNat)) else none := by
  simp only [unpad, h]

theorem unpad_append_replicate {p : Bytes} {n : Nat} (h1 : 1 ≤ n) (h16 : n ≤ 16) :
    unpad (p ++ List.replicate n (BitVec.ofNat 8 n)) = some p := by
  have hlast : (p ++ List.replicate n (BitVec.ofNat 8 n)).getLast? = some (BitVec.ofNat 8 n) := by
    obtain ⟨k, rfl⟩ := Nat.exists_eq_add_of_le' h1
    rw [List.replicate_succ', ← List.append_assoc, List.getLast?_concat]
  rw [unpad_of_getLast hlast, padByte_toNat h16, if_neg (by omega), List.length_append, List.length_replicate,
    Nat.add_sub_cancel, List.drop_left, List.take_left, if_pos (by simp)]

/-- `Unpad` accepts only what ends in padding, for whole blocks: the padding it reads then lies inside the sequence. -/
theorem eq_append_replicate_of_unpad {d p : Bytes} (hd : d.length % 16 = 0) (h : unpad d = some p) :
    ∃ n, 1 ≤ n ∧ n ≤ 16 ∧ d = p ++ List.replicate n (BitVec.ofNat 8 n) := by
  cases hlast : d.getLast? with
  | none => simp [unpad, hlast] at h
  | some b =>
    have hpos : d.length ≠ 0 := fun h0 => by simp [List.length_eq_zero_iff.1 h0] at hlast
    rw [unpad_of_getLast hlast, Option.ite_none_left_eq_some, Option.ite_none_right_eq_some] at h
    obtain ⟨hb, hall, hp⟩ := h
    refine ⟨b.toNat, by omega, by omega, ?_⟩
    have htail : d.drop (d.length - b.toNat) = List.replicate b.toNat b := by
      rw [List.eq_replicate_iff]
      exact ⟨by rw [List.length_drop]; omega, by simpa using hall⟩
    rw [BitVec.ofNat_toNat, BitVec.setWidth_eq, ← htail, ← Option.some.inj hp, List.take_append_drop]

/-- Settles O30: padding is one run of equal bytes at the end, and `Unpad` reads its length from the last byte. -/
theorem paddingRoundTrip : Obligations.PaddingRoundTrip := by
  refine ⟨fun p => ⟨unpad_append_replicate (by omega) (by omega), length_pad p⟩, fun d p hd => ?_⟩
  refine ⟨eq_append_replicate_of_unpad hd, ?_⟩
  rintro ⟨n, h1, h16, rfl⟩
  exact unpad_append_replicate h1 h16

/-- Valid padding looks at no byte above the sequence. -/
theorem PaddingValid.congr {d d' : Nat → Byte} {n : Nat} (h : ∀ a, a < n → d' a = d a) (hd : PaddingValid d n) :
    PaddingValid d' n := by
  obtain ⟨hpos, h1, h16, hall⟩ := hd
  have hlast : d' (n - 1) = d (n - 1) := h _ (by omega)
  rw [← hlast] at h1 h16
  exact ⟨hpos, h1, h16, fun a hlo hhi => by rw [h a hhi, hlast, hall a (by rwa [← hlast]) hhi]⟩

/-- A sequence that ends in `n` bytes of value `n` has valid padding, of that length. -/
theorem paddingValid_of_tail {d : Nat → Byte} {l n : Nat} (h1 : 1 ≤ n) (h16 : n ≤ 16)
    (h : ∀ a, l ≤ a → a < l + n → d a = BitVec.ofNat 8 n) :
    PaddingValid d (l + n) ∧ (d (l + n - 1)).toNat = n := by
  have hlast : d (l + n - 1) = BitVec.ofNat 8 n := h _ (by omega) (by omega)
  have hn : (d (l + n - 1)).toNat = n := by rw [hlast, padByte_toNat h16]
  refine ⟨⟨by omega, by omega, by omega, fun a hlo hhi => ?_⟩, hn⟩
  rw [hlast, h a (by omega) hhi]

/-- With valid padding `Unpad` takes off as many bytes as the last one says, when the sequence is that long. -/
theorem unpad_of_paddingValid {x : Bytes} (hx : x.length % 16 = 0) (h : PaddingValid (x.getD · 0x00#8) x.length) :
    unpad x = some (x.take (x.length - (x.getD (x.length - 1) 0x00#8).toNat)) := by
  obtain ⟨hpos, h1, h16, hall⟩ := h
  beta_reduce at h1 h16 hall
  generalize x.getD (x.length - 1) 0x00#8 = b at h1 h16 hall ⊢
  have htail : x.drop (x.length - b.toNat) = List.replicate b.toNat (BitVec.ofNat 8 b.toNat) := by
    rw [List.eq_replicate_iff]
    refine ⟨by rw [List.length_drop]; omega, fun c hc => ?_⟩
    obtain ⟨k, hk, rfl⟩ := List.mem_iff_getElem.1 hc
    rw [List.length_drop] at hk
    rw [List.getElem_drop, ← List.getD_eq_getElem _ 0x00#8, hall _ (by omega) (by omega), BitVec.ofNat_toNat,
      BitVec.setWidth_eq]
  conv_lhs => rw [← List.take_append_drop (x.length - b.toNat) x, htail]
  exact unpad_append_replicate h1 h16

/-- What `Unpad` accepts has valid padding. -/
theorem paddingValid_of_unpad {x p : Bytes} (hx : x.length % 16 = 0) (h : unpad x = some p) :
    PaddingValid (x.getD · 0x00#8) x.length := by
  obtain ⟨n, h1, h16, rfl⟩ := eq_append_replicate_of_unpad hx h
  rw [List.length_append, List.length_replicate]
  refine (paddingValid_of_tail h1 h16 fun a hlo hhi => ?_).1
  rw [List.getD_append_right _ _ _ _ hlo, List.getD_replicate _ (by omega)]

/-! The counter (R193). -/

theorem blockOfValue_mod (v : Nat) : blockOfValue (v % 2 ^ 128) = blockOfValue v := by
  rw [← blockValue_blockOfValue, blockOfValue_blockValue]

theorem ctrInc_eq (b : Block) : ctrInc b = blockOfValue (blockValue b + 1) :=
  blockOfValue_mod _

theorem ctrInc_blockOfValue (v : Nat) : ctrInc (blockOfValue v) = blockOfValue (v + 1) := by
  rw [ctrInc_eq, blockValue_blockOfValue, ← blockOfValue_mod, Nat.mod_add_mod, blockOfValue_mod]

/-- The base-256 digits of `v` below digit `k` are all 255 exactly when adding one carries into digit `k`. -/
theorem digits_eq_255_iff (v k : Nat) : (∀ e, e < k → v / 256 ^ e % 256 = 255) ↔ 256 ^ k ∣ v + 1 := by
  induction k with
  | zero => simp
  | succ k ih =>
    rw [Nat.forall_lt_succ_right, ih, pow_succ]
    constructor
    · rintro ⟨hk, hdigit⟩
      rw [← Nat.dvd_div_iff_mul_dvd hk, Nat.succ_div_of_dvd hk]
      omega
    · intro h
      have hk : 256 ^ k ∣ v + 1 := dvd_of_mul_right_dvd h
      rw [← Nat.dvd_div_iff_mul_dvd hk, Nat.succ_div_of_dvd hk] at h
      exact ⟨hk, by omega⟩

theorem blockOfValue_getElem (v i : Nat) (h : i < 16) : (blockOfValue v)[i] = BitVec.ofNat 8 (v / 256 ^ (15 - i)) := by
  simp [blockOfValue]

/-- Byte `i` of a block is digit `15 - i` of its value. -/
theorem getElem_toNat_eq_digit (b : Block) (i : Nat) (h : i < 16) : b[i].toNat = blockValue b / 256 ^ (15 - i) % 256 := by
  conv_lhs => rw [← blockOfValue_blockValue b]
  rw [blockOfValue_getElem, BitVec.toNat_ofNat]

/-- The bytes after byte `i` are all 0xFF exactly when adding one to the value carries into byte `i`. -/
theorem later_bytes_all_ones_iff (b : Block) (i : Fin 16) :
    (∀ j : Fin 16, i < j → b[j] = 0xFF#8) ↔ 256 ^ (15 - i.val) ∣ blockValue b + 1 := by
  have hbyte (j : Fin 16) : b[j] = 0xFF#8 ↔ blockValue b / 256 ^ (15 - j.val) % 256 = 255 := by
    rw [← getElem_toNat_eq_digit b j j.isLt, BitVec.toNat_eq]
    rfl
  simp only [← digits_eq_255_iff, hbyte]
  constructor
  · intro h e he
    simpa [show 15 - (15 - e) = e by omega] using h ⟨15 - e, by omega⟩ (Fin.lt_def.2 (show i.val < 15 - e by omega))
  · exact fun h j hj => h _ (by omega)

/-- Settles O31: the value is R193's own, and byte `i` is its digit, to which the addition carries or not. -/
theorem counterIncrement : Obligations.CounterIncrement := by
  intro b
  refine ⟨by rw [ctrInc, blockValue_blockOfValue, Nat.mod_mod], fun i => ?_⟩
  simp only [later_bytes_all_ones_iff]
  have hi : b[i] = BitVec.ofNat 8 (blockValue b / 256 ^ (15 - i.val)) :=
    BitVec.eq_of_toNat_eq (getElem_toNat_eq_digit b i i.isLt)
  rw [ctrInc_eq, Fin.getElem_fin, blockOfValue_getElem, Nat.succ_div, hi]
  split
  · rw [BitVec.ofNat_add]
  · rw [Nat.add_zero]

end Sys2Proof.Machine
end

section
/-! PROOF. The mode commands on a ready core (44_modes.md R196 to R205): each is a segment loop between the message and the output
buffer. -/

namespace Sys2Proof.Machine

/-- A mode command is ready when the three conditions of R195 hold that are not about the schedule. -/
theorem ready_of_isMode {i : Instr} (hi : i.isMode = true) {s : State} (hiv : i.needsIv = true → s.ivlen.toNat = 16)
    (hlen : s.len.toNat ≤ Config.maxLen) (hmod : i.wholeBlocks = true → s.len.toNat % 16 = 0) : s.Ready i :=
  ⟨fun hraw => by simp [isRaw_of_isMode hi] at hraw, fun _ => hlen, hiv, hmod⟩

/-! ECB and CBC encryption: the output is a list of blocks. -/

/-- What an encrypting command leaves that produces the blocks `bs`. -/
theorem exec_ready_blocks {i : Instr} (hi : i.isData = true) (hw : i.wholeBlocks = false) {s : State} (hk : s.Keyed)
    (hr : s.Ready i) {st cv : Block} {bs : List Block}
    (h : dataRun i s.lastRound (clearOutput s) = ⟨st, cv, unblocks bs⟩) :
    exec i s = .next { s with
      st := st, cv := cv, dout := Memory.writeBytes [] 0 (unblocks bs), olen := BitVec.ofNat 32 (16 * bs.length)
      err := 0#8 } := by
  rw [exec_ready_plain hi hw hk hr h, length_unblocks]

/-- The number of blocks of a padded message. -/
theorem length_blocks_pad_message (s : State) : (blocks (pad (message s))).length = s.len.toNat / 16 + 1 := by
  rw [length_blocks, length_pad, message_length, nSeg]
  omega

theorem read_above_unblocks {bs : List Block} {a : Nat} (h : 16 * bs.length ≤ a) :
    (Memory.writeBytes [] 0 (unblocks bs)).read a = 0x00#8 :=
  read_above _ a (by rwa [length_unblocks])

theorem getLastD_of_length {bs : List Block} {n : Nat} (h : bs.length = n + 1) (d : Block) : bs.getLastD d = bs[n] := by
  rw [getLastD_eq, dif_neg (by omega)]
  simp only [h, Nat.add_sub_cancel]

/-- The blocks that `ENCECB` gives out. -/
def State.ecbBlocks (s : State) : List Block :=
  (blocks (pad (message s))).map s.encrypts

theorem State.length_ecbBlocks (s : State) : s.ecbBlocks.length = s.len.toNat / 16 + 1 := by
  rw [State.ecbBlocks, List.length_map, length_blocks_pad_message]

theorem State.ecbBlocks_getElem (s : State) (j : Nat) (h : j < s.ecbBlocks.length) :
    s.ecbBlocks[j] = s.encrypts (paddedBlock s j) := by
  simp only [State.ecbBlocks, List.getElem_map, blocks_pad_message]

/-- Settles O32: the ECB loop maps the cipher over the padded blocks. -/
theorem encryptEcb : Obligations.EncryptEcb := by
  intro s n hk hlen hn
  have hr : s.Ready .encecb := ready_of_isMode rfl (by simp [Instr.needsIv]) hlen (by simp [Instr.wholeBlocks])
  have hrun : dataRun .encecb s.lastRound (clearOutput s) = ecbLoop s.encrypts s.st s.cv (blocks (pad (message s))) := rfl
  have hcount := s.length_ecbBlocks
  rw [ecbLoop_eq, ← State.ecbBlocks, getLastD_of_length hcount, s.ecbBlocks_getElem] at hrun
  have hexec := exec_ready_blocks rfl rfl hk hr hrun
  obtain rfl : n = 16 * s.ecbBlocks.length := by omega
  refine ⟨_, hexec, fun j hj => ?_, fun a ha => read_above_unblocks ha⟩
  rw [readBlock_unblocks _ _ (by omega), s.ecbBlocks_getElem]

/-- The blocks that `ENCCBC` gives out. -/
def State.cbcBlocks (s : State) : List Block :=
  cbcChain s.encrypts s.iv (blocks (pad (message s)))

theorem State.length_cbcBlocks (s : State) : s.cbcBlocks.length = s.len.toNat / 16 + 1 := by
  rw [State.cbcBlocks, length_cbcChain, length_blocks_pad_message]

theorem State.cbcBlocks_zero (s : State) (h : 0 < s.cbcBlocks.length) :
    s.cbcBlocks[0] = s.encrypts (xorBlock (paddedBlock s 0) s.iv) :=
  (cbcChain_getElem _ _ _ 0 h).trans (by rw [dif_pos rfl, blocks_pad_message])

theorem State.cbcBlocks_succ (s : State) (j : Nat) (h : j + 1 < s.cbcBlocks.length) :
    s.cbcBlocks[j + 1] = s.encrypts (xorBlock (paddedBlock s (j + 1)) s.cbcBlocks[j]) :=
  (cbcChain_getElem _ _ _ (j + 1) h).trans (by rw [dif_neg j.succ_ne_zero, blocks_pad_message]; rfl)

/-- Settles O34: the CBC loop makes each ciphertext block from the one before it. -/
theorem encryptCbc : Obligations.EncryptCbc := by
  intro s n hk hiv hlen hn
  have hr : s.Ready .enccbc := ready_of_isMode rfl (fun _ => hiv) hlen (by simp [Instr.wholeBlocks])
  have hrun : dataRun .enccbc s.lastRound (clearOutput s) = cbcEncLoop s.encrypts s.st s.iv (blocks (pad (message s))) := rfl
  have hcount := s.length_cbcBlocks
  rw [cbcEncLoop_eq, ← State.cbcBlocks, getLastD_of_length hcount, getLastD_of_length hcount, ← readBlock_unblocks] at hrun
  have hexec := exec_ready_blocks rfl rfl hk hr hrun
  obtain rfl : n = 16 * s.cbcBlocks.length := by omega
  refine ⟨_, hexec, ?_, fun j hj => ?_, fun a ha => read_above_unblocks ha⟩
  · rw [readBlock_unblocks _ _ (by omega), s.cbcBlocks_zero]
  · rw [readBlock_unblocks _ _ (by omega), readBlock_unblocks _ _ (by omega), s.cbcBlocks_succ]

/-! ECB and CBC decryption: the padding of the decrypted bytes is checked and removed. -/

/-- Command `i` takes the padding off the bytes `d` that it decrypted, and gives the others out. -/
def GivesUnpadded (i : Instr) (s : State) (st cv : Block) (d : Nat → Byte) : Prop :=
  ∃ (n : Nat) (dout : Memory), n + (d (s.len.toNat - 1)).toNat = s.len.toNat ∧
    exec i s = .next { s with st := st, cv := cv, dout := dout, olen := BitVec.ofNat 32 n, err := 0#8 } ∧
    (∀ a, a < n → dout.read a = d a) ∧ ∀ a, n ≤ a → dout.read a = 0x00#8

/-- How a command that removes padding ends, when it has decrypted to the bytes `d`. -/
theorem exec_ready_padded {i : Instr} (hi : i.isData = true) (hw : i.wholeBlocks = true) {s : State} (hk : s.Keyed)
    (hr : s.Ready i) {st cv : Block} {bs : List Block} {d : Nat → Byte}
    (h : dataRun i s.lastRound (clearOutput s) = ⟨st, cv, unblocks bs⟩) (hlen : 16 * bs.length = s.len.toNat)
    (hd : ∀ j (hj : j < bs.length) k (hk : k < 16), d (16 * j + k) = bs[j][k]) :
    (¬ PaddingValid d s.len.toNat →
      exec i s = .next { s with st := st, cv := cv, dout := [], olen := 0#32, err := 4#8 }) ∧
    (PaddingValid d s.len.toNat → GivesUnpadded i s st cv d) := by
  have hout (a : Nat) (ha : a < s.len.toNat) : d a = (unblocks bs).getD a 0x00#8 := by
    rw [unblocks_getD _ _ (by omega), ← hd _ (by omega) _ (by omega), Nat.div_add_mod]
  have hlen' : (unblocks bs).length = s.len.toNat := by rw [length_unblocks, hlen]
  have hwhole : (unblocks bs).length % 16 = 0 := by rw [length_unblocks, Nat.mul_mod_right]
  have hpad : PaddingValid d s.len.toNat ↔ PaddingValid ((unblocks bs).getD · 0x00#8) (unblocks bs).length := by
    rw [hlen']
    exact ⟨PaddingValid.congr fun a ha => (hout a ha).symm, PaddingValid.congr hout⟩
  constructor
  · intro hnot
    have hnone : unpad (unblocks bs) = none :=
      Option.eq_none_iff_forall_ne_some.2 fun p hp => hnot (hpad.2 (paddingValid_of_unpad hwhole hp))
    exact exec_ready_invalid hi hw hk hr h hnone
  · intro hvalid
    have hsome := unpad_of_paddingValid hwhole (hpad.1 hvalid)
    obtain ⟨hpos, h1, h16, -⟩ := hvalid
    rw [hlen', ← hout _ (by omega)] at hsome
    have hexec := exec_ready_unpadded hi hw hk hr h hsome
    have hplen : ((unblocks bs).take (s.len.toNat - (d (s.len.toNat - 1)).toNat)).length =
        s.len.toNat - (d (s.len.toNat - 1)).toNat := by
      rw [List.length_take]
      omega
    rw [hplen] at hexec
    refine ⟨_, _, Nat.sub_add_cancel (by omega), hexec, fun a ha => ?_, fun a ha => read_above _ a (by omega)⟩
    rw [Memory.read_writeBytes_nil, hout a (by omega), List.getD_eq_getElem?_getD, List.getElem?_take_of_lt ha]
    rfl

theorem byteAt_block (f : Nat → Block) (j i : Nat) (h : i < 16) : byteAt f (16 * j + i) = (f j)[i] := by
  simp only [byteAt, show (16 * j + i) / 16 = j by omega, Nat.mul_add_mod, Nat.mod_eq_of_lt h]

/-- The number of blocks of a message of whole blocks. -/
theorem length_blocks_message {s : State} (hmod : s.len.toNat % 16 = 0) :
    (blocks (message s)).length = s.len.toNat / 16 := by
  rw [length_blocks, message_length, nSeg]
  omega

/-- The last block that a decrypting command runs through. -/
theorem getLastD_map_blocks_message {s : State} (hmod : s.len.toNat % 16 = 0) (f : Block → Block) (b : Block) :
    ((blocks (message s)).map f).getLastD b =
      if s.len.toNat = 0 then b else f (readBlock s.din (s.len.toNat / 16 - 1)) := by
  have hzero : s.len.toNat / 16 = 0 ↔ s.len.toNat = 0 := by omega
  simp only [getLastD_eq, List.length_map, length_blocks_message hmod, List.getElem_map, blocks_message s hmod, hzero,
    dite_eq_ite]

/-- Settles O33: the ECB loop maps the inverse cipher over the blocks. -/
theorem decryptEcb : Obligations.DecryptEcb := by
  rintro s _ _ hk hlen hmod rfl rfl
  have hr : s.Ready .dececb := ready_of_isMode rfl (by simp [Instr.needsIv]) hlen fun _ => hmod
  have hrun : dataRun .dececb s.lastRound (clearOutput s) = ecbLoop s.decrypts s.st s.cv (blocks (message s)) := rfl
  rw [ecbLoop_eq, getLastD_map_blocks_message hmod] at hrun
  refine exec_ready_padded rfl rfl hk hr hrun ?_ fun j hj a ha => ?_
  · rw [List.length_map, length_blocks_message hmod]
    omega
  · rw [byteAt_block _ _ _ ha]
    simp only [List.getElem_map, blocks_message s hmod]

/-- Settles O35: the CBC loop exclusive-ors each decrypted block with the ciphertext block before it. -/
theorem decryptCbc : Obligations.DecryptCbc := by
  rintro s prev _ _ hk hiv hlen hmod hprev rfl rfl
  have hr : s.Ready .deccbc := ready_of_isMode rfl (fun _ => hiv) hlen fun _ => hmod
  have hrun : dataRun .deccbc s.lastRound (clearOutput s) = cbcDecLoop s.decrypts s.st s.iv (blocks (message s)) := rfl
  have hcv : (blocks (message s)).getLastD s.iv = prev (s.len.toNat / 16) := by
    have hzero : s.len.toNat / 16 = 0 ↔ s.len.toNat = 0 := by omega
    rw [← List.map_id (blocks (message s)), getLastD_map_blocks_message hmod, hprev]
    simp only [hzero, id]
  rw [cbcDecLoop_eq, getLastD_map_blocks_message hmod, hcv] at hrun
  refine exec_ready_padded rfl rfl hk hr hrun ?_ fun j hj a ha => ?_
  · rw [List.length_zipWith, List.length_cons, length_blocks_message hmod]
    omega
  · rw [byteAt_block _ _ _ ha, hprev]
    simp only [List.getElem_zipWith, blocks_message s hmod]
    cases j with
    | zero => rfl
    | succ j => simp only [List.getElem_cons_succ, blocks_message s hmod]; rfl

/-! The stream modes: the output is the message combined with a keystream. -/

theorem length_message_le (s : State) : (message s).length ≤ 16 * nSeg (message s).length := by
  unfold nSeg
  omega

/-- What a stream command writes that combines the message with the keystream `k`. -/
def State.streamOutput (s : State) (k : Nat → Block) : Memory :=
  Memory.writeBytes [] 0 (keystreamXor (segments (message s)) k)

/-- What a ready stream command leaves, for its keystream `k`. -/
theorem exec_ready_stream {i : Instr} (hi : i.isMode = true) (hw : i.wholeBlocks = false) {s : State} (hk : s.Keyed)
    (hiv : s.ivlen.toNat = 16) (hlen : s.len.toNat ≤ Config.maxLen) {st cv : Block} {k : Nat → Block}
    (h : dataRun i s.lastRound (clearOutput s) = ⟨st, cv, keystreamXor (segments (message s)) k⟩) :
    exec i s = .next { s with st := st, cv := cv, dout := s.streamOutput k, olen := s.len, err := 0#8 } ∧
    (∀ a, a < s.len.toNat → (s.streamOutput k).read a = s.din.read a ^^^ byteAt k a) ∧
    ∀ a, s.len.toNat ≤ a → (s.streamOutput k).read a = 0x00#8 := by
  have hready : s.Ready i := ready_of_isMode hi (fun _ => hiv) hlen (by simp [hw])
  have hseg := length_message_le s
  have hout : (keystreamXor (segments (message s)) k).length = s.len.toNat := by
    rw [segments, length_keystreamXor _ _ _ hseg, message_length]
  refine ⟨?_, fun a ha => ?_, fun a ha => read_above _ a (by omega)⟩
  · rw [exec_ready_plain (isData_of_isMode hi) hw hk hready h, hout, BitVec.ofNat_toNat, BitVec.setWidth_eq,
      State.streamOutput]
  · rw [State.streamOutput, Memory.read_writeBytes_nil, segments, keystreamXor_getD _ _ _ hseg a (by rwa [message_length]),
      message_getD _ _ ha]

theorem length_segments_message (s : State) : (segments (message s)).length = nSeg s.len.toNat := by
  rw [length_segments, message_length]

theorem nSeg_eq_zero {n : Nat} : nSeg n = 0 ↔ n = 0 := by
  unfold nSeg
  omega

/-- Settles O37: the OFB loop feeds each keystream block to the cipher again. -/
theorem ofbCommands : Obligations.OfbCommands := by
  intro s i k hk hiv hlen hi h0 hsucc
  have hrun : dataRun i s.lastRound (clearOutput s) = ofbLoop s.encrypts s.st s.iv (segments (message s)) := by
    rcases hi with rfl | rfl <;> rfl
  obtain ⟨hmode, hw⟩ : i.isMode = true ∧ i.wholeBlocks = false := by rcases hi with rfl | rfl <;> exact ⟨rfl, rfl⟩
  rw [ofbLoop_eq _ _ _ _ k h0 hsucc, length_segments_message] at hrun
  simp only [nSeg_eq_zero] at hrun
  exact ⟨_, exec_ready_stream hmode hw hk hiv hlen hrun⟩

/-- Settles O38: the CTR loop encrypts the counter and increments it, from the IV on. -/
theorem ctrCommands : Obligations.CtrCommands := by
  intro s i k hk hiv hlen hi hkey
  have hrun : dataRun i s.lastRound (clearOutput s) = ctrLoop s.encrypts s.st s.iv (segments (message s)) := by
    rcases hi with rfl | rfl <;> rfl
  obtain ⟨hmode, hw⟩ : i.isMode = true ∧ i.wholeBlocks = false := by rcases hi with rfl | rfl <;> exact ⟨rfl, rfl⟩
  simp only [blockOfValue_mod] at hkey ⊢
  rw [ctrLoop_eq _ _ _ _ (fun j => blockOfValue (blockValue s.iv + j)) (blockOfValue_blockValue _)
    (fun j => (ctrInc_blockOfValue _).symm), length_segments_message] at hrun
  simp only [nSeg_eq_zero, ← hkey] at hrun
  exact ⟨_, exec_ready_stream hmode hw hk hiv hlen hrun⟩

/-- The block that CFB encrypts for segment `j`: the IV, or the ciphertext block before it. -/
def feedbackBlock (iv : Block) (src : Memory) (j : Nat) : Block :=
  if j = 0 then iv else readBlock src (j - 1)

theorem feedbackBlock_eq {iv : Block} {src : Memory} {n : Nat} {prev : Nat → Block} (h0 : prev 0 = iv)
    (hsucc : ∀ j, 16 * (j + 1) ≤ n → prev (j + 1) = readBlock src j) {j : Nat} (hj : 16 * j ≤ n) :
    prev j = feedbackBlock iv src j := by
  cases j with
  | zero => exact h0
  | succ j => exact hsucc j hj

theorem toBlock_drop_getElem (x : Bytes) (n i : Nat) (hi : i < 16) : (toBlock (x.drop n))[i] = x.getD (n + i) 0x00#8 := by
  rw [toBlock_getElem _ _ hi, List.getD_eq_getElem?_getD, List.getElem?_drop, ← List.getD_eq_getElem?_getD]

theorem toBlock_drop_eq_readBlock_writeBytes (x : Bytes) (j : Nat) :
    toBlock (x.drop (16 * j)) = readBlock (Memory.writeBytes [] 0 x) j :=
  Vector.ext fun i hi => by
    rw [toBlock_drop_getElem _ _ _ hi, readBlock_getElem _ _ _ hi, Memory.read_writeBytes_nil]
    rfl

theorem toBlock_drop_message {s : State} {j : Nat} (h : 16 * (j + 1) ≤ s.len.toNat) :
    toBlock ((message s).drop (16 * j)) = readBlock s.din j :=
  Vector.ext fun i hi => by
    rw [toBlock_drop_getElem _ _ _ hi, readBlock_getElem _ _ _ hi, message_getD _ _ (by omega)]

/-- The run of a CFB command that encrypts the feedback blocks `prev`. -/
def State.cfbRun (s : State) (prev : Nat → Block) : Run where
  st := if s.len.toNat = 0 then s.st else s.encrypts (prev (nSeg s.len.toNat - 1))
  cv := prev (s.len.toNat / 16)
  out := keystreamXor (segments (message s)) fun j => s.encrypts (prev j)

theorem lt_length_message_add (s : State) : 16 * nSeg (message s).length < (message s).length + 16 := by
  unfold nSeg
  omega

theorem takeSegments_message (s : State) : takeSegments (nSeg s.len.toNat) (message s) = segments (message s) := by
  rw [segments, message_length]

/-- `ENCCFB` takes the feedback from its output. -/
theorem dataRun_enccfb (s : State) : ∃ prev : Nat → Block,
    dataRun .enccfb s.lastRound (clearOutput s) = s.cfbRun prev ∧
    ∀ j, 16 * j ≤ s.len.toNat → prev j = feedbackBlock s.iv (s.streamOutput fun j => s.encrypts (prev j)) j := by
  obtain ⟨prev, h0, hsucc, hrun⟩ :=
    cfbEncLoop_eq s.encrypts s.st s.iv _ (message s) (length_message_le s) (lt_length_message_add s)
  simp only [message_length, nSeg_eq_zero, takeSegments_message] at hsucc hrun
  rw [← State.cfbRun] at hrun
  simp only [hrun, toBlock_drop_eq_readBlock_writeBytes] at hsucc
  exact ⟨prev, hrun, fun j hj => feedbackBlock_eq h0 hsucc hj⟩

/-- `DECCFB` takes it from its input. -/
theorem dataRun_deccfb (s : State) : ∃ prev : Nat → Block,
    dataRun .deccfb s.lastRound (clearOutput s) = s.cfbRun prev ∧
    ∀ j, 16 * j ≤ s.len.toNat → prev j = feedbackBlock s.iv s.din j := by
  obtain ⟨prev, h0, hsucc, hrun⟩ :=
    cfbDecLoop_eq s.encrypts s.st s.iv _ (message s) (length_message_le s) (lt_length_message_add s)
  simp only [message_length, nSeg_eq_zero, takeSegments_message] at hsucc hrun
  exact ⟨prev, hrun, fun j hj => feedbackBlock_eq h0 (fun j hj => (hsucc j hj).trans (toBlock_drop_message hj)) hj⟩

/-- What a CFB command leaves, with its feedback blocks read from `src`. -/
theorem exec_ready_cfb {i : Instr} (hi : i = .enccfb ∨ i = .deccfb) {s : State} (hk : s.Keyed) (hiv : s.ivlen.toNat = 16)
    (hlen : s.len.toNat ≤ Config.maxLen) {prev : Nat → Block}
    (hrun : dataRun i s.lastRound (clearOutput s) = s.cfbRun prev) {src : Memory}
    (hprev : ∀ j, 16 * j ≤ s.len.toNat → prev j = feedbackBlock s.iv src j) :
    exec i s = .next { s with
      st := if s.len.toNat = 0 then s.st else s.encrypts (feedbackBlock s.iv src (nSeg s.len.toNat - 1))
      cv := feedbackBlock s.iv src (s.len.toNat / 16)
      dout := s.streamOutput fun j => s.encrypts (prev j), olen := s.len, err := 0#8 } ∧
    (∀ a, a < s.len.toNat → (s.streamOutput fun j => s.encrypts (prev j)).read a =
      s.din.read a ^^^ byteAt (fun j => s.encrypts (feedbackBlock s.iv src j)) a) ∧
    ∀ a, s.len.toNat ≤ a → (s.streamOutput fun j => s.encrypts (prev j)).read a = 0x00#8 := by
  obtain ⟨hmode, hw⟩ : i.isMode = true ∧ i.wholeBlocks = false := by rcases hi with rfl | rfl <;> exact ⟨rfl, rfl⟩
  obtain ⟨hexec, hbytes, habove⟩ := exec_ready_stream hmode hw hk hiv hlen hrun
  rw [← hprev (s.len.toNat / 16) (by omega), ← hprev (nSeg s.len.toNat - 1) (by unfold nSeg; omega)]
  refine ⟨hexec, fun a ha => ?_, habove⟩
  rw [hbytes a ha, byteAt, byteAt, hprev (a / 16) (by omega)]

/-- Settles O36: the CFB loops encrypt the ciphertext block before each segment; above the message the feedback is not read. -/
theorem cfbCommands : Obligations.CfbCommands := by
  intro s i hk hiv hlen hi
  rcases hi with rfl | rfl
  · obtain ⟨prev, hrun, hprev⟩ := dataRun_enccfb s
    exact ⟨_, _, _, fun _ => rfl, fun _ => rfl, exec_ready_cfb (.inl rfl) hk hiv hlen hrun hprev⟩
  · obtain ⟨prev, hrun, hprev⟩ := dataRun_deccfb s
    exact ⟨_, _, _, fun _ => rfl, fun _ => rfl, exec_ready_cfb (.inr rfl) hk hiv hlen hrun hprev⟩

end Sys2Proof.Machine
end

section
/-! PROOF. Decrypting what was encrypted gives the message back (44_modes.md R207, R208). -/

namespace Sys2Proof.Machine

/-! The schedule and the IV kept from one command to the next. -/

/-- `u` holds the schedule and the IV of `s`. -/
structure SameSession (s u : State) : Prop where
  rk : u.rk = s.rk
  nr : u.nr = s.nr
  rkcnt : u.rkcnt = s.rkcnt
  iv : u.iv = s.iv
  ivlen : u.ivlen = s.ivlen

/-- A data command keeps the schedule and the IV. -/
theorem SameSession.of_exec {i : Instr} (hi : i.isData = true) {s t u : State} (ht : exec i s = .next t)
    (h : SameSession t u) : SameSession s u := by
  obtain ⟨-, -, hiv, hivlen, -, -, hnr, hrkcnt, hrk, -⟩ := dataCommandFrame s t i hi ht
  exact ⟨h.rk.trans hrk, h.nr.trans hnr, h.rkcnt.trans hrkcnt, h.iv.trans hiv, h.ivlen.trans hivlen⟩

section
variable {s u : State}

theorem SameSession.keyed (h : SameSession s u) (hk : s.Keyed) : u.Keyed := by
  rwa [State.Keyed, h.nr, h.rkcnt]

theorem SameSession.encrypts_eq (h : SameSession s u) : u.encrypts = s.encrypts := by
  funext b
  rw [State.encrypts, State.encrypts, State.lastRound, State.lastRound, h.rk, h.nr]

theorem SameSession.decrypts_encrypts (h : SameSession s u) (b : Block) : u.decrypts (s.encrypts b) = b := by
  rw [← h.encrypts_eq]
  exact decryptBlock_encryptBlock ..

end

/-- Buffers that agree below `n` have the same blocks there. -/
theorem readBlock_congr {m m' : Memory} {n : Nat} (h : ∀ a, a < n → m.read a = m'.read a) {j : Nat}
    (hj : 16 * (j + 1) ≤ n) : readBlock m j = readBlock m' j :=
  Vector.ext fun i hi => by
    rw [readBlock_getElem _ _ _ hi, readBlock_getElem _ _ _ hi, h _ (by omega)]

/-- A command that answers `r` succeeds and gives the message of `s` out. -/
def GivesBack (s : State) (r : Result) : Prop :=
  ∃ v, r = .next v ∧ v.err = 0#8 ∧ v.olen = s.len ∧ ∀ a, a < s.len.toNat → v.dout.read a = s.din.read a

/-! The stream modes: the same keystream twice cancels. -/

/-- Output combined with a keystream, read in again and combined with the same keystream, is the input. -/
theorem read_of_keystream_twice {s t u v : State} {k k' : Nat → Block} (htlen : t.olen = s.len) (hulen : u.len = t.olen)
    (hload : ∀ a, a < t.olen.toNat → u.din.read a = t.dout.read a)
    (ht : ∀ a, a < s.len.toNat → t.dout.read a = s.din.read a ^^^ byteAt k a)
    (hv : ∀ a, a < u.len.toNat → v.dout.read a = u.din.read a ^^^ byteAt k' a)
    (hk : ∀ j, 16 * j < s.len.toNat → k' j = k j) {a : Nat} (ha : a < s.len.toNat) : v.dout.read a = s.din.read a := by
  rw [hulen, htlen] at hv
  rw [htlen] at hload
  rw [hv a ha, hload a ha, ht a ha, byteAt, byteAt, hk _ (by omega), BitVec.xor_assoc, BitVec.xor_self, BitVec.xor_zero]

section
variable {s t u : State} {enc dec : Instr} (hk : s.Keyed) (hiv : s.ivlen.toNat = 16) (hlen : s.len.toNat ≤ Config.maxLen)
  (ht : exec enc s = .next t) (hsame : SameSession s u) (hulen : u.len = t.olen)
  (hload : ∀ a, a < t.olen.toNat → u.din.read a = t.dout.read a)
include hk hiv hlen ht hsame hulen hload

/-- OFB makes its keystream from the IV alone. -/
theorem ofb_roundTrip (henc : enc = .encofb ∨ enc = .decofb) (hdec : dec = .encofb ∨ dec = .decofb) :
    GivesBack s (exec dec u) := by
  have hstep (j : Nat) : s.encrypts^[j + 1 + 1] s.iv = s.encrypts (s.encrypts^[j + 1] s.iv) :=
    Function.iterate_succ_apply' ..
  obtain ⟨dout, hexec, hbytes, -⟩ := ofbCommands s enc (fun j => s.encrypts^[j + 1] s.iv) hk hiv hlen henc rfl hstep
  cases hexec.symm.trans ht
  obtain ⟨dout', hexec', hbytes', -⟩ := ofbCommands u dec (fun j => s.encrypts^[j + 1] s.iv) (hsame.keyed hk)
    (by rwa [hsame.ivlen]) (by rwa [hulen]) hdec (by rw [hsame.encrypts_eq, hsame.iv]; rfl)
    (by rwa [hsame.encrypts_eq])
  refine ⟨_, hexec', rfl, hulen, fun a ha => ?_⟩
  exact read_of_keystream_twice rfl hulen hload hbytes hbytes' (fun _ _ => rfl) ha

/-- So does CTR, from the counter that starts at the IV. -/
theorem ctr_roundTrip (henc : enc = .encctr ∨ enc = .decctr) (hdec : dec = .encctr ∨ dec = .decctr) :
    GivesBack s (exec dec u) := by
  obtain ⟨dout, hexec, hbytes, -⟩ := ctrCommands s enc _ hk hiv hlen henc fun _ => rfl
  cases hexec.symm.trans ht
  obtain ⟨dout', hexec', hbytes', -⟩ := ctrCommands u dec _ (hsame.keyed hk) (by rwa [hsame.ivlen]) (by rwa [hulen]) hdec
    fun _ => rfl
  refine ⟨_, hexec', rfl, hulen, fun a ha => ?_⟩
  exact read_of_keystream_twice rfl hulen hload hbytes hbytes' (fun j _ => by rw [hsame.encrypts_eq, hsame.iv]) ha

/-- CFB decryption reads from its input the feedback that encryption read from its output. -/
theorem cfb_roundTrip (henc : enc = .enccfb) (hdec : dec = .deccfb) : GivesBack s (exec dec u) := by
  subst henc hdec
  obtain ⟨dout, k, prev, hprev, hkey, hexec, hbytes, -⟩ := cfbCommands s .enccfb hk hiv hlen (.inl rfl)
  cases hexec.symm.trans ht
  obtain ⟨dout', k', prev', hprev', hkey', hexec', hbytes', -⟩ := cfbCommands u .deccfb (hsame.keyed hk)
    (by rwa [hsame.ivlen]) (by rwa [hulen]) (.inr rfl)
  refine ⟨_, hexec', rfl, hulen, fun a ha => ?_⟩
  refine read_of_keystream_twice rfl hulen hload hbytes hbytes' (fun j hj => ?_) ha
  rw [hkey, hkey', hsame.encrypts_eq, hprev, hprev', hsame.iv]
  cases j with
  | zero => rfl
  | succ j => exact congrArg s.encrypts (readBlock_congr hload hj.le)

end

/-- Settles O40: in each of the three modes both sides make the same keystream. -/
theorem streamModesRoundTrip : Obligations.StreamModesRoundTrip := by
  intro s t u enc dec hmodes hk hiv hlen ht hrk hnr hrkcnt huiv hivlen hulen hload
  have hdata : enc.isData = true := by rcases hmodes with ⟨rfl, -⟩ | ⟨rfl, -⟩ | ⟨rfl, -⟩ <;> rfl
  have hsame : SameSession s u := .of_exec hdata ht ⟨hrk, hnr, hrkcnt, huiv, hivlen⟩
  rcases hmodes with ⟨henc, hdec⟩ | ⟨henc, hdec⟩ | ⟨henc, hdec⟩
  · exact cfb_roundTrip hk hiv hlen ht hsame hulen hload henc hdec
  · exact ofb_roundTrip hk hiv hlen ht hsame hulen hload (.inl henc) (.inr hdec)
  · exact ctr_roundTrip hk hiv hlen ht hsame hulen hload (.inl henc) (.inr hdec)

/-- Settles O41: CTR and OFB decrypt as they encrypt. -/
theorem ctrAndOfbAreInvolutions : Obligations.CtrAndOfbAreInvolutions := by
  intro s t u i hi hk hiv hlen ht hrk hnr hrkcnt huiv hivlen hulen hload
  have hdata : i.isData = true := by rcases hi with rfl | rfl <;> rfl
  have hsame : SameSession s u := .of_exec hdata ht ⟨hrk, hnr, hrkcnt, huiv, hivlen⟩
  rcases hi with hctr | hofb
  · exact ctr_roundTrip hk hiv hlen ht hsame hulen hload (.inl hctr) (.inl hctr)
  · exact ofb_roundTrip hk hiv hlen ht hsame hulen hload (.inl hofb) (.inl hofb)

/-! The padded modes: the decrypted blocks are the padded blocks, and their padding is taken off again. -/

theorem byteAt_paddedBlock (s : State) (a : Nat) : byteAt (paddedBlock s) a =
    if a < s.len.toNat then s.din.read a else BitVec.ofNat 8 (16 - s.len.toNat % 16) := by
  rw [byteAt, paddedBlock_getElem _ _ _ (Nat.mod_lt _ (by decide)), Nat.div_add_mod]

/-- The padded message ends in valid padding, which has the pad's length. -/
theorem paddingValid_paddedBlock (s : State) :
    PaddingValid (byteAt (paddedBlock s)) (s.len.toNat + (16 - s.len.toNat % 16)) ∧
    (byteAt (paddedBlock s) (s.len.toNat + (16 - s.len.toNat % 16) - 1)).toNat = 16 - s.len.toNat % 16 := by
  refine paddingValid_of_tail (by omega) (by omega) fun a hlo _ => ?_
  rw [byteAt_paddedBlock, if_neg (by omega)]

/-- A command that decrypts to the padded blocks of `s` gives out the message of `s`. -/
theorem exec_of_decrypted_paddedBlocks {dec : Instr} {s u : State} {st cv : Block} {f : Nat → Block}
    (hlen : u.len.toNat = s.len.toNat + (16 - s.len.toNat % 16))
    (hf : ∀ j, 16 * j < u.len.toNat → f j = paddedBlock s j)
    (hdec : PaddingValid (byteAt f) u.len.toNat → GivesUnpadded dec u st cv (byteAt f)) :
    GivesBack s (exec dec u) := by
  have hbyte (a : Nat) (ha : a < u.len.toNat) : byteAt f a = byteAt (paddedBlock s) a := by
    rw [byteAt, byteAt, hf _ (by omega)]
  obtain ⟨hvalid, hpad⟩ := paddingValid_paddedBlock s
  rw [← hlen] at hvalid hpad
  obtain ⟨n, dout, hn, hexec, hout, -⟩ := hdec (hvalid.congr hbyte)
  rw [hbyte _ (by omega), hpad] at hn
  obtain rfl : n = s.len.toNat := by omega
  refine ⟨_, hexec, rfl, by rw [BitVec.ofNat_toNat, BitVec.setWidth_eq], fun a ha => ?_⟩
  rw [hout a ha, hbyte a (by omega), byteAt_paddedBlock, if_pos ha]

/-- Settles O39: the inverse cipher gives the padded blocks back, in CBC after the same chaining. -/
theorem paddedModesRoundTrip : Obligations.PaddedModesRoundTrip := by
  intro s t u enc dec hmodes hk hiv hlen ht hrk hnr hrkcnt huiv hivlen hulen hload
  have hdata : enc.isData = true := by rcases hmodes with ⟨rfl, -⟩ | ⟨rfl, -⟩ <;> rfl
  have hsame : SameSession s u := .of_exec hdata ht ⟨hrk, hnr, hrkcnt, huiv, hivlen⟩
  have hn : (BitVec.ofNat 32 (s.len.toNat + 16 - s.len.toNat % 16)).toNat = s.len.toNat + (16 - s.len.toNat % 16) := by
    rw [Config.toNat_ofNat (by omega)]
    omega
  rcases hmodes with ⟨rfl, rfl⟩ | ⟨rfl, rfl⟩
  · obtain ⟨dout, hexec, hblocks, -⟩ := encryptEcb s _ hk (by omega) rfl
    cases hexec.symm.trans ht
    have hulen' : u.len.toNat = s.len.toNat + (16 - s.len.toNat % 16) := by rw [hulen, hn]
    refine exec_of_decrypted_paddedBlocks hulen' (fun j hj => ?_)
      (decryptEcb u _ _ (hsame.keyed hk) (by omega) (by omega) rfl rfl).2
    rw [readBlock_congr hload (j := j) (by simp only [hn]; omega), hblocks j (by omega), hsame.decrypts_encrypts]
  · obtain ⟨dout, hexec, hfirst, hsucc, -⟩ := encryptCbc s _ hk (hiv rfl) (by omega) rfl
    cases hexec.symm.trans ht
    have hulen' : u.len.toNat = s.len.toNat + (16 - s.len.toNat % 16) := by rw [hulen, hn]
    refine exec_of_decrypted_paddedBlocks hulen' (fun j hj => ?_)
      (decryptCbc u (feedbackBlock u.iv u.din) _ _ (hsame.keyed hk) (by rw [hsame.ivlen, hiv rfl]) (by omega) (by omega)
        (fun _ => rfl) rfl rfl).2
    have hblock (j : Nat) (hj : 16 * (j + 1) ≤ u.len.toNat) : readBlock u.din j = readBlock dout j :=
      readBlock_congr hload (by rwa [← hulen])
    rw [hblock j (by omega)]
    cases j with
    | zero => rw [hfirst, hsame.decrypts_encrypts, feedbackBlock, if_pos rfl, hsame.iv, xorBlock_cancel]
    | succ j =>
      rw [hsucc j (by omega), hsame.decrypts_encrypts, feedbackBlock, if_neg j.succ_ne_zero, Nat.add_sub_cancel,
        hblock j (by omega), xorBlock_cancel]

end Sys2Proof.Machine
end

section
/-! PROOF. Which commands raise which codes (60_exceptions.md R240, R247). -/

namespace Sys2Proof.Machine

/-- The table of R240: the commands that can raise an error. No command raises IllegalCommand; an illegal byte does (R247). -/
def ErrorKind.RaisedBy : ErrorKind → Instr → Prop
  | .invalidKeySize, i => i = .expand
  | .invalidIV, i => i.needsIv = true
  | .invalidBlockSize, i => i.isRaw = true ∨ i.wholeBlocks = true
  | .invalidPadding, i => i.wholeBlocks = true
  | .invalidKeySchedule, i => i.isData = true
  | .lengthOverflow, i => i.isMode = true
  | .illegalCommand, _ => False

/-! The codes tell the errors apart, and none of them is the 0 of a command that ends well. -/

theorem ErrorKind.code_ne_zero (e : ErrorKind) : e.code ≠ 0x00#8 := by
  cases e <;> decide

theorem ErrorKind.code_injective : Function.Injective ErrorKind.code := by
  intro e e'
  cases e <;> cases e' <;> decide

/-! The errors of the checks. -/

theorem rawBlockCheck_error {s : State} {e : ErrorKind} (h : rawBlockCheck s = some e) :
    e = .invalidKeySchedule ∨ e = .invalidBlockSize := by
  unfold rawBlockCheck at h
  split at h
  · cases h; exact .inl rfl
  split at h
  · cases h; exact .inr rfl
  · cases h

theorem modeCheck_error {b c : Bool} {s : State} {e : ErrorKind} (h : modeCheck b c s = some e) :
    e = .invalidKeySchedule ∨ (b = true ∧ e = .invalidIV) ∨ e = .lengthOverflow ∨ (c = true ∧ e = .invalidBlockSize) := by
  unfold modeCheck at h
  split at h
  · cases h; exact .inl rfl
  split at h
  next hiv => cases h; exact .inr (.inl ⟨hiv.1, rfl⟩)
  split at h
  · cases h; exact .inr (.inr (.inl rfl))
  split at h
  next hlen => cases h; exact .inr (.inr (.inr ⟨hlen.1, rfl⟩))
  · cases h

theorem raisedBy_of_dataCheck {i : Instr} (hi : i.isData = true) {s : State} {e : ErrorKind} (h : dataCheck i s = some e) :
    e.RaisedBy i := by
  rcases Bool.or_eq_true_iff.1 hi with hraw | hmode
  · rw [dataCheck_of_isRaw hraw] at h
    rcases rawBlockCheck_error h with rfl | rfl
    · exact hi
    · exact .inl hraw
  · rw [dataCheck_of_isMode hmode] at h
    rcases modeCheck_error h with rfl | ⟨hiv, rfl⟩ | rfl | ⟨hw, rfl⟩
    · exact hi
    · exact hiv
    · exact hmode
    · exact .inr hw

/-! The code a command leaves in `ERR`. -/

theorem exec_data_err {i : Instr} (hi : i.isData = true) {s t : State} (h : exec i s = .next t) :
    t.err = 0x00#8 ∨ ∃ e : ErrorKind, e.RaisedBy i ∧ t.err = e.code := by
  rcases exec_data_next hi h with ⟨e, he, rfl⟩ | ⟨-, -, _, _, _, rfl | ⟨hw, rfl⟩, -⟩
  · exact .inr ⟨e, raisedBy_of_dataCheck hi he, rfl⟩
  · exact .inl rfl
  · exact .inr ⟨.invalidPadding, hw, rfl⟩

theorem exec_expand_err {s t : State} (h : exec .expand s = .next t) :
    t.err = 0x00#8 ∨ t.err = ErrorKind.invalidKeySize.code := by
  cases hp : params s.keylen.toNat with
  | none => cases (exec_expand_of_params_none hp).symm.trans h; exact .inr rfl
  | some p => cases (exec_expand_of_params_some hp).symm.trans h; exact .inl rfl

/-- Every command ends well, or with an error that the table of R240 gives it. -/
theorem exec_err {i : Instr} {s t : State} (h : exec i s = .next t) :
    t.err = 0x00#8 ∨ ∃ e : ErrorKind, e.RaisedBy i ∧ t.err = e.code := by
  by_cases hi : i.isData = true
  · exact exec_data_err hi h
  · rcases not_data hi with rfl | rfl
    · exact (exec_expand_err h).imp_right fun herr => ⟨.invalidKeySize, rfl, herr⟩
    · cases (exec_clear s).symm.trans h
      exact .inl rfl

theorem raisedBy_of_exec_err {i : Instr} {s t : State} (h : exec i s = .next t) {e : ErrorKind} (he : t.err = e.code) :
    e.RaisedBy i := by
  rcases exec_err h with h0 | ⟨e', hby, he'⟩
  · exact absurd (he.symm.trans h0) e.code_ne_zero
  · rwa [ErrorKind.code_injective (he.symm.trans he')]

/-- No command, but only an illegal byte, leaves the code 7 (R247). -/
theorem runCommand_err_eq_seven_iff {v : Byte} {s t : State} (h : runCommand v s = .next t) :
    t.err = ErrorKind.illegalCommand.code ↔ ∀ i, encode i ≠ v := by
  constructor
  · rintro herr i rfl
    rw [runCommand_of_decode (decode_encode i)] at h
    exact raisedBy_of_exec_err h herr
  · intro hv
    cases (runCommand_of_illegal (fun i => (hv i).symm) s).symm.trans h
    rfl

/-- A code that a command raises is one of 1 to 6. -/
theorem ErrorKind.RaisedBy.code_cases {e : ErrorKind} {i : Instr} (h : e.RaisedBy i) :
    e.code = 1#8 ∨ e.code = 2#8 ∨ e.code = 3#8 ∨ e.code = 4#8 ∨ e.code = 5#8 ∨ e.code = 6#8 := by
  cases e with
  | illegalCommand => exact h.elim
  | _ => simp [ErrorKind.code]

/-- Settles O46: a code left by a command is that of an error the command can raise, and 7 is no such code. -/
theorem errorCodesByCommand : Obligations.ErrorCodesByCommand := by
  refine ⟨fun s t i h => ?_, fun s t v h => runCommand_err_eq_seven_iff h⟩
  have hcode : t.err = 0#8 ∨ t.err = 1#8 ∨ t.err = 2#8 ∨ t.err = 3#8 ∨ t.err = 4#8 ∨ t.err = 5#8 ∨ t.err = 6#8 := by
    refine (exec_err h).imp_right ?_
    rintro ⟨e, hby, he⟩
    rw [he]
    exact hby.code_cases
  have hby (e : ErrorKind) (he : t.err = e.code) : e.RaisedBy i := raisedBy_of_exec_err h he
  exact ⟨hcode, hby .invalidKeySize, hby .invalidIV, hby .invalidBlockSize, hby .invalidPadding, hby .invalidKeySchedule,
    hby .lengthOverflow⟩

end Sys2Proof.Machine
end

section
/-! PROOF. Reset and hazards (70_reset_and_hazards.md): no legal state stops, the life cycle of the schedule, and what the commands
do in the reset state. -/

namespace Sys2Proof.Machine

/-! No legal state stops (R280): the one stop there is needs an `NR` above the round-key file. -/

/-- `NR` names an entry of the round-key file (R28). -/
theorem State.DescriptorsLegal.nr_lt {s : State} (h : s.DescriptorsLegal) : s.nr.toNat < 15 := by
  rcases h with ⟨-, hnr, -⟩ | ⟨-, hnr, -⟩ | ⟨-, hnr, -⟩ | ⟨-, hnr, -⟩
  all_goals rw [hnr]; decide

/-- A byte written to `CMD` is a command's and runs it, or it raises IllegalCommand (R93). -/
theorem runCommand_cases (v : Byte) (s : State) :
    (∃ i, v = encode i ∧ runCommand v s = exec i s) ∨ runCommand v s = .next (illegalCommand s) := by
  by_cases hv : ∃ i, v = encode i
  · obtain ⟨i, rfl⟩ := hv
    exact .inl ⟨i, rfl, runCommand_of_decode (decode_encode i) s⟩
  · exact .inr (runCommand_of_illegal (not_exists.1 hv) s)

section
variable {s : State} (hnr : s.nr.toNat < 15)
include hnr

theorem exists_runData_next (check : State → Option ErrorKind) (body : Fin 15 → State → State) :
    ∃ t, runData check body s = .next t := by
  cases hc : check (clearOutput s) with
  | some e => exact ⟨_, runData_of_error hc⟩
  | none => exact ⟨_, runData_of_none hc hnr⟩

theorem exists_exec_next (i : Instr) : ∃ t, exec i s = .next t := by
  by_cases hi : i.isData = true
  · rw [exec_data hi]
    exact exists_runData_next hnr _ _
  · rcases not_data hi with rfl | rfl
    · obtain ⟨_, _, _, _, _, hexec⟩ := exec_expand_shape s
      exact ⟨_, hexec⟩
    · exact ⟨_, exec_clear s⟩

theorem exists_runCommand_next (v : Byte) : ∃ t, runCommand v s = .next t := by
  rcases runCommand_cases v s with ⟨i, -, hrun⟩ | hrun
  · rw [hrun]
    exact exists_exec_next hnr i
  · exact ⟨_, hrun⟩

theorem exists_hostEvent_next (e : HostEvent) : ∃ t, hostEvent e s = .next t := by
  cases e with
  | read sel addr => exact ⟨_, rfl⟩
  | reset => exact ⟨_, rfl⟩
  | write sel addr data =>
    by_cases hcmd : sel = 0#2 ∧ addr = 0#32
    · obtain ⟨rfl, rfl⟩ := hcmd
      exact exists_runCommand_next hnr data
    · exact ⟨_, hostWrite_of_not_cmd hcmd data s⟩

end

/-- Every legal state has a next state. -/
theorem exists_step_next_of_inv {s : State} (h : s.Inv) : ∃ t, step s = .next t := by
  obtain ⟨hdesc, -⟩ := h
  cases hh : s.host with
  | nil => exact ⟨_, step_of_host_nil hh⟩
  | cons e rest =>
    rw [step_of_host hh]
    exact exists_hostEvent_next (s := { s with host := rest }) hdesc.nr_lt e

theorem runSteps_succ_of_step {s t : State} (h : step s = .next t) (n : Nat) : runSteps (n + 1) s = runSteps n t := by
  simp only [runSteps, h]

/-- A run from a legal state is safe: its first step goes on, to a legal state. -/
theorem safe_of_inv (n : Nat) {s : State} (h : s.Inv) : Safe n s := by
  induction n generalizing s with
  | zero => exact ⟨s, rfl⟩
  | succ n ih =>
    obtain ⟨t, ht⟩ := exists_step_next_of_inv h
    rw [Safe, runSteps_succ_of_step ht]
    exact ih (stepKeepsInvariant s t h ht)

/-- Settles O49: a legal `NR` lets every event go on, and the invariant carries that through the run. -/
theorem legalStateNeverStops : Obligations.LegalStateNeverStops :=
  fun _ h => ⟨exists_step_next_of_inv h, fun n => safe_of_inv n h⟩

/-! The life cycle of the schedule (R274). -/

/-- `t` has the schedule and the descriptors of `s`. -/
def SameSchedule (s t : State) : Prop :=
  t.rk = s.rk ∧ t.nk = s.nk ∧ t.nr = s.nr ∧ t.rkcnt = s.rkcnt

/-- No data command writes the schedule. -/
theorem sameSchedule_of_exec_data {i : Instr} (hi : i.isData = true) {s t : State} (h : exec i s = .next t) :
    SameSchedule s t := by
  obtain ⟨_, _, _, _, _, rfl, -⟩ := exec_data_writes hi h
  exact ⟨rfl, rfl, rfl, rfl⟩

/-- No byte written to `CMD` but those of `EXPAND` and `CLEAR` changes the schedule. -/
theorem sameSchedule_of_runCommand {v : Byte} (hexpand : v ≠ encode .expand) (hclear : v ≠ encode .clear) {s t : State}
    (h : runCommand v s = .next t) : SameSchedule s t := by
  rcases runCommand_cases v s with ⟨i, rfl, hrun⟩ | hrun
  · refine sameSchedule_of_exec_data ?_ (hrun.symm.trans h)
    by_contra hdata
    rcases not_data hdata with rfl | rfl
    · exact hexpand rfl
    · exact hclear rfl
  · cases hrun.symm.trans h
    exact ⟨rfl, rfl, rfl, rfl⟩

theorem sameSchedule_portWrite (sel : BitVec 2) (addr : BitVec 32) (data : Byte) (s : State) :
    SameSchedule s (portWrite sel addr data s) := by
  rcases portWrite_shape sel addr data s with ⟨_, _, _, _, _, h⟩ | ⟨_, _, h⟩
  all_goals rw [h]; exact ⟨rfl, rfl, rfl, rfl⟩

/-- No event but `EXPAND`, `CLEAR` and reset changes the schedule. -/
theorem sameSchedule_of_hostEvent {e : HostEvent} (hexpand : e ≠ command .expand) (hclear : e ≠ command .clear)
    (hreset : e ≠ .reset) {s t : State} (h : hostEvent e s = .next t) : SameSchedule s t := by
  cases e with
  | reset => exact absurd rfl hreset
  | read sel addr =>
    cases h
    exact ⟨rfl, rfl, rfl, rfl⟩
  | write sel addr data =>
    by_cases hcmd : sel = 0#2 ∧ addr = 0#32
    · obtain ⟨rfl, rfl⟩ := hcmd
      refine sameSchedule_of_runCommand ?_ ?_ h
      · rintro rfl; exact hexpand rfl
      · rintro rfl; exact hclear rfl
    · rw [hostEvent, hostWrite_of_not_cmd hcmd] at h
      cases h
      exact sameSchedule_portWrite sel addr data s

/-- `EXPAND` ends well exactly when it leaves a schedule held. -/
theorem exec_expand_err_eq_zero_iff {s t : State} (h : exec .expand s = .next t) : t.err = 0#8 ↔ t.rkcnt ≠ 0#8 := by
  cases hp : params s.keylen.toNat with
  | none =>
    cases (exec_expand_of_params_none hp).symm.trans h
    exact iff_of_false ErrorKind.invalidKeySize.code_ne_zero fun hcnt => hcnt rfl
  | some p =>
    obtain ⟨nk, nr⟩ := p
    cases (exec_expand_of_params_some hp).symm.trans h
    obtain ⟨-, rfl, rfl | rfl | rfl⟩ := params_eq_some hp
    all_goals
      refine iff_of_true rfl ?_
      rw [finish_rkcnt, setSchedule_rkcnt]
      decide

theorem State.DescriptorsLegal.rkcnt_cases {s : State} (h : s.DescriptorsLegal) :
    s.rkcnt = 0#8 ∨ s.rkcnt = 11#8 ∨ s.rkcnt = 13#8 ∨ s.rkcnt = 15#8 :=
  h.imp (·.2.2) (.imp (·.2.2) (.imp (·.2.2) (·.2.2)))

/-- Settles O51: `EXPAND` makes or drops the schedule, `CLEAR` and reset zero the core, and no other event touches it. -/
theorem scheduleLifeCycle : Obligations.ScheduleLifeCycle := by
  intro s t e rest hinv hh ht
  obtain ⟨hdesc, -⟩ := stepKeepsInvariant s t hinv ht
  rw [step_of_host hh] at ht
  refine ⟨hdesc.rkcnt_cases, ?expand, ?zero, fun hexpand hclear hreset => ?other⟩
  case expand =>
    rintro rfl
    have hiff := exec_expand_err_eq_zero_iff ((hostEvent_command .expand _).symm.trans ht)
    exact ⟨hiff.1, fun herr => not_not.1 (mt hiff.2 herr)⟩
  case zero =>
    rintro (rfl | rfl)
    · cases ((hostEvent_command .clear _).trans (exec_clear _)).symm.trans ht
      rfl
    · cases ht
      rfl
  case other => exact sameSchedule_of_hostEvent (s := { s with host := rest }) hexpand hclear hreset ht

/-! The reset state (R272). -/

theorem dataCheck_of_not_held {i : Instr} (hi : i.isData = true) {s : State} (h : s.rkcnt.toNat ≠ s.nr.toNat + 1) :
    dataCheck i s = some .invalidKeySchedule := by
  rcases Bool.or_eq_true_iff.1 hi with hraw | hmode
  · rw [dataCheck_of_isRaw hraw, rawBlockCheck_of_not_held h]
  · rw [dataCheck_of_isMode hmode, modeCheck_of_not_held h]

theorem byteOf_zero (k : Nat) : byteOf 0#32 k = 0x00#8 := by
  rw [byteOf_eq, BitVec.toNat_ofNat, Nat.zero_mod, Nat.zero_div]

theorem regRead_reset {a : Nat} (h : ¬ (0x40 ≤ a ∧ a ≤ 0x43)) : regRead a State.reset = 0x00#8 := by
  unfold regRead
  split_ifs
  -- `ERR`, `KEYLEN`, `IVLEN`
  · rfl
  · rfl
  · rfl
  -- the bytes of `LEN` and `OLEN`
  · exact byteOf_zero _
  · exact byteOf_zero _
  -- `NK`, `NR`, `RKCNT`
  · rfl
  · rfl
  · rfl
  -- the bytes of `IV` and `KEY`
  · exact Vector.getElem_replicate _
  · exact Vector.getElem_replicate _
  -- `CMD` and the reserved addresses
  · rfl

theorem rkRead_reset (a : Nat) : rkRead a State.reset = 0x00#8 := by
  by_cases h : a < 240
  · rw [rkRead, dif_pos h]
    simp [State.reset, zeroRoundKeys, zeroBlock]
  · exact rkRead_of_outOfRange (Nat.not_lt.1 h) _

/-- Settles O9: no schedule is held, `KEYLEN = 0` has no parameters, and a zeroed core reads zero wherever it does not show
`MAXLEN`. -/
theorem commandsInResetState : Obligations.CommandsInResetState := by
  refine ⟨exec_expand_of_params_none rfl, fun i hi => ?data, exec_clear State.reset, fun v hv => ?illegal, fun sel addr h => ?read⟩
  case data => exact exec_data_of_error hi (dataCheck_of_not_held hi (by decide))
  case illegal => exact runCommand_of_illegal (fun i => (hv i).symm) State.reset
  case read =>
    unfold portRead
    split_ifs with hreg
    · exact regRead_reset fun hmax => h ⟨hreg, hmax⟩
    · rfl
    · rfl
    · rfl
    · rfl
    · exact rkRead_reset addr.toNat

end Sys2Proof.Machine
end

section
/-! PROOF. Where the spec leaves the model a choice (log entries 4, 6, 7): the idle step, the host's side of the port at reset and
`CLEAR`, and the one stop of a command. -/

namespace Sys2Proof.Machine

/-! The idle step, reset and `CLEAR`. -/

/-- Settles O6: with the list of events empty the step returns its argument. -/
theorem idleStepChangesNothing : Obligations.IdleStepChangesNothing :=
  fun _ h => step_of_host_nil h

/-- The reset event zeroes the core (R270, R271). -/
theorem hostEvent_reset (s : State) : hostEvent .reset s = .next (zeroCore s) := rfl

/-- Settles O8: the step takes the event off the list, and the event zeroes the core. -/
theorem resetEventResetsTheCore : Obligations.ResetEventResetsTheCore := by
  intro s rest h
  rw [step_of_host h, hostEvent_reset, zeroCore]

/-- No address of the port shows the host's side of it: a zeroed core reads as the reset state. -/
theorem portRead_zeroCore (sel : BitVec 2) (addr : BitVec 32) (s : State) :
    portRead sel addr (zeroCore s) = portRead sel addr State.reset := rfl

/-- Settles O42: `CLEAR` zeroes the core, and O9 says what a zeroed core reads. -/
theorem clearErasesEverything : Obligations.ClearErasesEverything := by
  intro s
  obtain ⟨-, -, -, -, hread⟩ := commandsInResetState
  refine ⟨zeroCore s, exec_clear s, rfl, fun sel addr h => ?_⟩
  rw [portRead_zeroCore]
  exact hread sel addr h

/-! The one stop of a command. -/

/-- The command `i` passes all its checks in `s`, and the last round key it asks for lies above `RK[14]` (R27). -/
def State.RoundKeyMissing (s : State) (i : Instr) : Prop :=
  i.isData = true ∧ s.rkcnt.toNat = s.nr.toNat + 1 ∧ 15 ≤ s.nr.toNat ∧ s.Ready i

theorem exec_of_roundKeyMissing {i : Instr} {s : State} (h : s.RoundKeyMissing i) : exec i s = .fault .roundKeyAbsent := by
  obtain ⟨hi, hheld, hnr, hready⟩ := h
  have hcheck : dataCheck i (clearOutput s) = none := by
    rw [dataCheck_clearOutput, dataCheck_eq_none hi]
    exact ⟨hheld, hready⟩
  rw [exec_data hi, runData_of_absent hcheck (Nat.not_lt.2 hnr)]

/-- `EXPAND` and `CLEAR` end in every state. -/
theorem exists_exec_next_of_not_data {i : Instr} (hi : ¬ i.isData = true) (s : State) : ∃ t, exec i s = .next t := by
  rcases not_data hi with rfl | rfl
  · obtain ⟨_, _, _, _, _, hexec⟩ := exec_expand_shape s
    exact ⟨_, hexec⟩
  · exact ⟨_, exec_clear s⟩

/-- A command ends where no round key is missing: a failing check ends it with an error, and passing checks leave `NR` below 15. -/
theorem exists_exec_next_of_not_missing {i : Instr} {s : State} (h : ¬ s.RoundKeyMissing i) : ∃ t, exec i s = .next t := by
  by_cases hi : i.isData = true
  · cases hcheck : dataCheck i s with
    | some e => exact ⟨_, exec_data_of_error hi hcheck⟩
    | none =>
      obtain ⟨hheld, hready⟩ := (dataCheck_eq_none hi).1 hcheck
      have hnr : s.nr.toNat < 15 := Nat.not_le.1 fun habove => h ⟨hi, hheld, habove, hready⟩
      exact exists_exec_next hnr i
  · exact exists_exec_next_of_not_data hi s

theorem exec_stops_iff (i : Instr) (s : State) : (¬ ∃ t, exec i s = .next t) ↔ s.RoundKeyMissing i := by
  refine ⟨not_imp_comm.1 exists_exec_next_of_not_missing, fun h => ?_⟩
  rintro ⟨t, ht⟩
  cases (exec_of_roundKeyMissing h).symm.trans ht

/-- Settles O50: a command stops exactly where a round key is missing, and there with that fault. -/
theorem onlyAbsentRoundKeyStops : Obligations.OnlyAbsentRoundKeyStops :=
  fun s i => ⟨exec_stops_iff i s, fun h => exec_of_roundKeyMissing ((exec_stops_iff i s).1 h)⟩

end Sys2Proof.Machine
end
